-- ==== Sys2Proof/Word.lean ====
section
/-! DEFINITION. The word types of the block: bytes, 16-bit fields and the 17-bit length counter
(spec/00_scope.md R7, R9). -/

namespace Sys2Proof

/-- An unsigned 8-bit value (R9). -/
abbrev Byte := BitVec 8

/-- An unsigned 16-bit value: a command word, a frame field, a parameter index. -/
abbrev Half := BitVec 16

/-- The 17-bit input length counter's values (R16). -/
abbrev Len := BitVec 17

end Sys2Proof
end

