-- ==== Sys2Proof/Config.lean ====
section
/-! DEFINITION. What an implementation fixes (spec/00_scope.md R7, R8): the OPEN static parameters
CHECKSUM_ENABLE, checksum16, KNOWN_STATUS and SF_BIT as opaque constants, and the types of their values.
No command and no port changes them. -/

namespace Sys2Proof

/-- The static parameters DECODE reads (R8, R72). The decode function takes them as an argument, so that a
claim may fix them or quantify over them; the machine runs with `Params.device`. -/
structure Params where
  /-- CHECKSUM_ENABLE: whether check 5 is performed (R82, R93). -/
  checksumEnable : Bool
  /-- checksum16: the checksum algorithm of check 5, a total function of the bytes only (R94). -/
  checksum16 : List Byte → Half

/-- CHECKSUM_ENABLE of this block: OPEN (decision D8). Free: see notes/assumptions/8.md. -/
opaque Config.checksumEnable : Bool

/-- checksum16 of this block: OPEN (decision D9). Free: see notes/assumptions/8.md. -/
opaque Config.checksum16 : List Byte → Half

/-- The static parameters of this block, both free. -/
def Params.device : Params := ⟨Config.checksumEnable, Config.checksum16⟩

/-- Names of the StatusCode vocabulary (R98). The source names six codes; every other name of an
implementation's vocabulary is `other`. -/
inductive StatusName where
  | success
  | cmdUnknown
  | timeout
  | checksumError
  | accessDenied
  | axisBlocked
  | other (label : String)
deriving DecidableEq, Repr

/-- KNOWN_STATUS outside its two fixed entries: OPEN (decision D20). Free: see notes/assumptions/9.md. -/
opaque Config.otherStatus : Half → Option StatusName

/-- KNOWN_STATUS (R98): a finite map from 16-bit values to names, with 0 and 14 fixed by the source. -/
def Config.knownStatus (raw : Half) : Option StatusName :=
  if raw = 0 then some .success
  else if raw = 14 then some .cmdUnknown
  else Config.otherStatus raw

/-- The StateFlag meanings the source names (R102), in its order; `other` for any further flag that an
implementation's vocabulary names. -/
inductive StateFlag where
  | referenced
  | moving
  | softLimitHit
  | axisBlockedPlus
  | axisBlockedMinus
  | targetReached
  | fastStop
  | thermalFault
  | currentFault
  | powerFault
  | scriptRunning
  | scriptFailed
  | forceControl
  | other (label : String)
deriving DecidableEq, Repr

/-- SF_BIT (R102): the bit position 0 to 20 of each flag. OPEN (decision D21). Free: see
notes/assumptions/10.md. -/
opaque Config.sfBit : StateFlag → Fin 21

end Sys2Proof
end

