-- ==== Sys2Proof/Machine/Format.lean ====
section
/-! DEFINITION. The fixed constants of spec/00_scope.md R7, each under the spec's name. -/

namespace Sys2Proof.Machine

/-- PREAMBLE_BYTE (R7). -/
def preambleByte : Byte := 0xAA

/-- PREAMBLE_LEN (R7). -/
def preambleLen : Nat := 3

/-- OFF_CMD (R7): offset of Command ID. -/
def offCmd : Nat := 3

/-- OFF_PLEN (R7): offset of the 2-byte Payload Length. -/
def offPlen : Nat := 4

/-- OFF_STATUS (R7): offset of the 2-byte Status Code. -/
def offStatus : Nat := 6

/-- OFF_PARAMS (R7): offset of the first parameter byte. -/
def offParams : Nat := 8

/-- OVERHEAD (R7): total length minus Payload Length. -/
def overhead : Nat := 8

/-- MIN_PLEN (R7): smallest legal Payload Length. -/
def minPlen : Nat := 2

/-- MIN_FRAME_LEN (R7): smallest buffer length that passes check 1. -/
def minFrameLen : Nat := 10

/-- MAX_PLEN (R7): largest encodable Payload Length. -/
def maxPlen : Nat := 65535

/-- MAX_FRAME_LEN (R7, R51): longest frame that can decode. -/
def maxFrameLen : Nat := maxPlen + overhead

/-- MAX_PARAMS (R7): most parameter bytes one frame carries. -/
def maxParams : Nat := maxPlen - minPlen

/-- IBUF_CAP (R7, R15): capacity of the input buffer in bytes. -/
def ibufCap : Nat := 65543

/-- PBUF_CAP (R7, R23): capacity of the parameter buffer in bytes. -/
def pbufCap : Nat := 65533

/-- Offset of the Checksum field of a frame with Payload Length `pl` (R45): the checksum covers the bytes
below it (R48). -/
def offChecksum (pl : Nat) : Nat := pl + 6

/-- SF_MEANINGFUL_MASK (R101). -/
def sfMeaningfulMask : BitVec 32 := 0x001FFFFF

/-- SF_RESERVED_MASK (R101). -/
def sfReservedMask : BitVec 32 := 0xFFE00000

end Sys2Proof.Machine
end

