-- ==== Sys2Proof/Syntax.lean ====
section
/-! DEFINITION. The abstract text of the block's interface: the four rows of spec/opcode_table.json, what the
host drives on the block's two input ports, and the host-program notation of spec/30_encoding.md section 3. -/

namespace Sys2Proof

/-- The instructions: one constructor per row of spec/opcode_table.json. -/
inductive Instr where
  /-- `PUSH b` (R63): append the byte `b` to the input buffer. -/
  | push (b : Byte)
  /-- `DECODE` (R75): decode the input buffer. -/
  | decode
  /-- `CLEAR` (R69): empty the input buffer. -/
  | clear
  /-- `RD_PARAM(i)` (R96): read one parameter byte through the read port. -/
  | rdParam (i : Half)
deriving DecidableEq, Repr

/-- What the host drives on an input port of the block: this is what an instruction is encoded in. -/
inductive Request where
  /-- a 16-bit command word CW on the command port (R55). -/
  | command (w : Half)
  /-- a 16-bit index on the read port RD_PARAM, which is no command word (R96). -/
  | readIndex (i : Half)
deriving DecidableEq, Repr

/-- One line of a host program (R60, R61, R62). Numbers are as written; `WellFormed.lean` says which
are in range. -/
inductive AsmLine where
  | push (imm : Nat)
  | decode
  | clear
  /-- the host-side step `WAIT` (R61). -/
  | wait
  /-- `PUSHB b0, b1, ..., bn` (R62). An empty list is a DESIGN CHOICE of the model (notes/assumptions/15.md). -/
  | pushb (bytes : List Nat)
  /-- `FRAME cmd, st, [p0, ..., pm], k` (R62). -/
  | frame (cmd st : Nat) (params : List Nat) (k : Nat)
  /-- `FRAMEC cmd, st, [p0, ..., pm]` (R62): with the right checksum. -/
  | framec (cmd st : Nat) (params : List Nat)
  /-- `DEC` (R62): `DECODE`, then `WAIT`. -/
  | dec
deriving DecidableEq, Repr

/-- What one line of program text holds (R60). -/
inductive ParsedLine where
  /-- nothing but spaces and a comment. -/
  | blank
  | line (l : AsmLine)
  /-- not a line of the notation. -/
  | rejected
deriving DecidableEq, Repr

end Sys2Proof
end

