-- ==== Sys2Proof/Machine/State.lean ====
section
/-! DEFINITION. The machine's state as plain data: everything spec/10_state.md R27 lists, and the host agent's
side of the interface (the model's own two fields). -/

namespace Sys2Proof.Machine

/-- A byte store: (index, byte) cells in the canonical form of `Memory.wf` (Machine/Ops.lean). -/
abbrev Memory := List Host.Cell

/-- The read-only output ports (R97). -/
inductive Port where
  | busy
  | result
  | msgValid
  | cmd
  | status
  | pcount
  | ilen
  | iovf
deriving DecidableEq, Repr

/-- What one host read gave back, each port at its full width (R36, R97), or a byte of the read port (R96). -/
inductive HostRead where
  | busy (v : Bool)
  | result (v : BitVec 3)
  | msgValid (v : Bool)
  | cmd (v : Byte)
  | status (v : Half)
  | pcount (v : Half)
  | ilen (v : Len)
  | iovf (v : Bool)
  | param (i : Half) (v : Byte)
deriving DecidableEq, Repr

/-- One action of the host at the block's interface (R132). -/
inductive Event where
  /-- a command word on the command port or an index on the read port. -/
  | request (r : Request)
  /-- a read of an output port (R97). -/
  | readPort (p : Port)
  /-- the host-side step WAIT: the host reads BUSY until it reads 0 (R61). -/
  | wait
  /-- the reset input is asserted (R121). -/
  | reset
deriving DecidableEq, Repr

/-- The complete state. -/
structure State where
  /-- IBUF, the input buffer, indices 0 to 65542 (R15). -/
  ibuf : Memory
  /-- ILEN, the input length counter (R16). -/
  ilen : Len
  /-- IOVF, the input overflow flag (R17). -/
  iovf : Bool
  /-- BUSY (R18). -/
  busy : Bool
  /-- RESULT, the outcome of the most recent completed DECODE (R19). -/
  result : BitVec 3
  /-- CMD, the Command ID of the last message (R20). -/
  cmd : Byte
  /-- STATUS, its raw Status Code (R21). -/
  status : Half
  /-- PCOUNT, its parameter count (R22). -/
  pcount : Half
  /-- PBUF, the parameter result buffer, indices 0 to 65532 (R23). -/
  pbuf : Memory
  /-- The MODEL's own field: what the host still does at the interface, oldest first, in the order in which it
  takes effect (notes/assumptions/1.md). -/
  schedule : List Event
  /-- The MODEL's own field: what the host's reads gave back, newest first (notes/assumptions/12.md). -/
  received : List HostRead
deriving DecidableEq, Repr

/-- The block has no trap (R112); these are the model's own checks that a byte store is accessed only where the
spec says it is (notes/assumptions/11.md). -/
inductive Fault where
  /-- A read of IBUF at an index at or above ILEN, or of a byte sequence at or above its length. Raised by the
  decode function's reads, which R90 says never go there. SAFE: the model stops. -/
  | readPastInput (index : Nat)
  /-- A write of `count` parameter bytes to PBUF, which has fewer (R23). Raised by the success write-back, which
  R87 says never goes there. SAFE: the model stops. -/
  | writePastParams (count : Nat)
deriving DecidableEq, Repr

/-- Why a step gives an instruction no meaning. -/
inductive Refusal where
  /-- An instruction without a meaning yet, by its mnemonic: raised by no arm of `exec`. SAFE. -/
  | notModelled (mnemonic : String)
  /-- A reserved command word was accepted (R57: unspecified; "a model refuses it"). Raised by the step. SAFE:
  nothing is claimed of such a run. -/
  | reservedCommand (w : Half)
deriving DecidableEq, Repr

/-- The machine right after reset (R27, R28, R121): every counter, flag and port 0, RESULT NONE. No byte of the
two stores is listed (notes/assumptions/4.md) and the host has done and seen nothing. -/
def State.reset : State where
  ibuf := []
  ilen := 0
  iovf := false
  busy := false
  result := 0
  cmd := 0
  status := 0
  pcount := 0
  pbuf := []
  schedule := []
  received := []

end Sys2Proof.Machine
end

