-- ==== Sys2Proof/Machine/Operands.lean ====
section
/-! DEFINITION. Multi-byte values: assembling them from single bytes, splitting them into bytes, and the reads
`MemRead` and `B[a, b)` of spec/00_scope.md R9 and R10. Byte order is decided here alone (spec/20_memory.md R32,
R33). No access has an alignment requirement (R35). -/

namespace Sys2Proof.Machine

/-- The little-endian value of a byte sequence: the sum of byte `k` times `256 ^ k` (R10, R32). -/
def littleEndian : List Byte → Nat
  | [] => 0
  | b :: bs => b.toNat + 256 * littleEndian bs

/-- The `n` low bytes of `v`, lowest first: the bytes `MemWrite(S, a, n, v)` writes (R10). -/
def leBytes : Nat → Nat → List Byte
  | 0, _ => []
  | n + 1, v => BitVec.ofNat 8 v :: leBytes n (v / 256)

/-- `B[a, a + n)` (R9), read byte by byte through `read`. -/
def readRange (read : Nat → Except Fault Byte) (a : Nat) : Nat → Except Fault (List Byte)
  | 0 => .ok []
  | n + 1 => do
    let b ← read a
    let bs ← readRange read (a + 1) n
    return b :: bs

/-- `MemRead(S, a, n)` (R10): `n` bytes from offset `a`, assembled little-endian. -/
def memRead (read : Nat → Except Fault Byte) (a n : Nat) : Except Fault Nat := do
  let bs ← readRange read a n
  return littleEndian bs

/-- Reading byte `i` of a byte sequence; there is no byte at or above its length. -/
def seqByte (bytes : List Byte) (i : Nat) : Except Fault Byte :=
  match bytes[i]? with
  | some b => .ok b
  | none => .error (.readPastInput i)

end Sys2Proof.Machine
end

