-- ==== Sys2Proof/Machine/Flags.lean ====
section
/-! DEFINITION. The outcomes of a DECODE and their codes in RESULT (spec/10_state.md R19), and the derived port
MSG_VALID (R24). -/

namespace Sys2Proof.Machine

/-- The five typed failures (R71, R107), in the order of the checks. -/
inductive Failure where
  | frameTooShort
  | badPreamble
  | payloadTooSmall
  | lengthMismatch
  | checksumError
deriving DecidableEq, Repr

/-- The result of the decode function: `Fail(o)` or `Ok(cmd, status, params)` (R71). -/
inductive FrameResult where
  | fail (o : Failure)
  | ok (cmd : Byte) (status : Half) (params : List Byte)
deriving DecidableEq, Repr

/-- RESULT's code NONE: no DECODE has completed since reset (R19). -/
def resultNone : BitVec 3 := 0

/-- RESULT's code OK (R19). -/
def resultOk : BitVec 3 := 1

/-- RESULT's code of a failure (R19): 2 to 6, in the order of the checks. -/
def Failure.code : Failure → BitVec 3
  | .frameTooShort => 2
  | .badPreamble => 3
  | .payloadTooSmall => 4
  | .lengthMismatch => 5
  | .checksumError => 6

/-- `MSG_VALID = (RESULT == 1)` (R24): derived, not stored. -/
def State.msgValid (s : State) : Bool := s.result == resultOk

end Sys2Proof.Machine
end

