-- ==== Sys2Proof/Machine/Ops.lean ====
section
/-! DEFINITION. The named operations over the two byte stores and the registers: every change of State goes
through one of them. The block has no exception to take and none to return from (spec/60_exceptions.md R112,
R113); what stands in that place is the one failure write-back, `State.writeFailure`. -/

namespace Sys2Proof.Machine

/-! ### Byte stores -/

/-- What an index that nothing has written reads as. The spec leaves it unspecified and unobservable (R28, R29:
"A model may hold them as any value"). DESIGN CHOICE, notes/assumptions/4.md. -/
def unlistedByte : Byte := 0

/-- The byte at index `a`. -/
def Memory.read : Memory → Nat → Byte
  | [], _ => unlistedByte
  | (k, b) :: m, a => if a = k then b else Memory.read m a

/-- Puts a cell in front, unless its byte is what an unlisted index reads as. -/
def Memory.cons (a : Nat) (b : Byte) (m : Memory) : Memory :=
  if b = unlistedByte then m else (a, b) :: m

/-- `S[a] <- b`, keeping the canonical form. -/
def Memory.write : Memory → Nat → Byte → Memory
  | [], a, b => Memory.cons a b []
  | (k, c) :: m, a, b =>
    if a < k then Memory.cons a b ((k, c) :: m)
    else if a = k then Memory.cons a b m
    else (k, c) :: Memory.write m a b

/-- `S[a + k] <- bytes[k]` for every `k` below the number of bytes: with `leBytes`, the `MemWrite` of R10. -/
def Memory.writeList : Memory → Nat → List Byte → Memory
  | m, _, [] => m
  | m, a, b :: bs => Memory.writeList (Memory.write m a b) (a + 1) bs

/-- The canonical form: indices strictly rising, and no cell equal to what an unlisted index reads as. -/
abbrev Memory.wf (m : Memory) : Prop :=
  List.Pairwise (fun c d : Host.Cell => c.1 < d.1) m ∧ ∀ c ∈ m, c.2 ≠ unlistedByte

/-- Every listed index exists in a store of `cap` bytes. -/
abbrev Memory.within (m : Memory) (cap : Nat) : Prop := ∀ c ∈ m, c.1 < cap

/-! ### Input side -/

/-- Reads IBUF at index `i`: only indices below ILEN are read (R15). -/
def State.inputByte (s : State) (i : Nat) : Except Fault Byte :=
  if i < s.ilen.toNat then .ok (s.ibuf.read i) else .error (.readPastInput i)

/-- `IBUF[ILEN] <- b; ILEN <- ILEN + 1` (R63). -/
def State.storeInput (s : State) (b : Byte) : State :=
  { s with ibuf := s.ibuf.write s.ilen.toNat b, ilen := s.ilen + 1 }

/-- `IOVF <- 1` (R64). -/
def State.setOverflow (s : State) : State := { s with iovf := true }

/-- `ILEN <- 0; IOVF <- 0` (R69, R88): no byte of IBUF is written. -/
def State.emptyInput (s : State) : State := { s with ilen := 0, iovf := false }

/-- PUSH at acceptance (R63, R64). -/
def State.pushByte (s : State) (b : Byte) : State :=
  if s.ilen.toNat < ibufCap then s.storeInput b else s.setOverflow

/-! ### Handshake and result side -/

/-- `BUSY <- 1` (R75). -/
def State.raiseBusy (s : State) : State := { s with busy := true }

/-- `BUSY <- 0` (R76). -/
def State.lowerBusy (s : State) : State := { s with busy := false }

/-- Failure write-back (R86): PBUF is not written. -/
def State.writeFailure (s : State) (o : Failure) : State :=
  { s with result := o.code, cmd := 0, status := 0, pcount := 0 }

/-- Success write-back (R87, R84). -/
def State.writeMessage (s : State) (c : Byte) (st : Half) (params : List Byte) : State :=
  { s with
    result := resultOk, cmd := c, status := st, pcount := BitVec.ofNat 16 params.length,
    pbuf := s.pbuf.writeList 0 params }

/-- The BUSY hold (R126): a command offered while BUSY is 1 is not accepted and changes no state. Otherwise the
machine goes to the state the command's acceptance leaves. -/
def whenReady (s accepted : State) : Host.Outcome State Fault Refusal :=
  if s.busy then .next s else .next accepted

/-! ### The host's side and reset -/

/-- The oldest event of the host's schedule has taken effect. -/
def State.takeEvent (s : State) : State := { s with schedule := s.schedule.tail }

/-- The host gets back `v`. -/
def State.recordRead (s : State) (v : HostRead) : State := { s with received := v :: s.received }

/-- The reset input is asserted (R121, R122). The contents of the two stores are unspecified and unobservable
after it (R28); they are left as they are (notes/assumptions/5.md). The host's side is not the block's. -/
def State.resetInput (s : State) : State :=
  { s with
    ilen := 0, iovf := false, busy := false, result := resultNone, cmd := 0, status := 0, pcount := 0 }

end Sys2Proof.Machine
end

