-- ==== Sys2Proof/Machine/FrameParser.lean ====
section
/-! DEFINITION. The frame parser, payload-length validator, checksum verifier and field extractor of
spec/41_decode.md (R77 to R93). -/

namespace Sys2Proof.Machine

/-- Check 2 (R79): bytes 0, 1 and 2 are each the preamble byte. -/
def preambleOk (read : Nat → Except Fault Byte) : Except Fault Bool := do
  let b0 ← read 0
  let b1 ← read 1
  let b2 ← read 2
  return b0 == preambleByte && b1 == preambleByte && b2 == preambleByte

/-- Check 5 (R82): the received value is the stored 16 bits at `PL + 6`, the computed one is checksum16 of the
bytes below. When CHECKSUM_ENABLE is false it passes and reads nothing (R93). -/
def checksumOk (p : Params) (read : Nat → Except Fault Byte) (pl : Nat) : Except Fault Bool :=
  if p.checksumEnable then do
    let rx ← memRead read (offChecksum pl) 2
    let covered ← readRange read 0 (offChecksum pl)
    return BitVec.ofNat 16 rx == p.checksum16 covered
  else .ok true

/-- Extraction (R83): Command ID, raw Status Code, and the `PL - 2` parameter bytes. -/
def extract (read : Nat → Except Fault Byte) (pl : Nat) : Except Fault FrameResult := do
  let c ← read offCmd
  let st ← memRead read offStatus 2
  let params ← readRange read offParams (pl - minPlen)
  return .ok c (BitVec.ofNat 16 st) params

/-- The algorithm of R77 over a source of `len` bytes read through `read`, with the overflow flag `overflow`:
checks 1 to 5 in order, the first failure reported (R85), then extraction. -/
def decodeFrame (p : Params) (len : Nat) (overflow : Bool) (read : Nat → Except Fault Byte) :
    Except Fault FrameResult :=
  if len < minFrameLen then .ok (.fail .frameTooShort)
  else do
    let pre ← preambleOk read
    if pre then
      let pl ← memRead read offPlen 2
      if pl < minPlen then return .fail .payloadTooSmall
      else if overflow = true ∨ len ≠ pl + overhead then return .fail .lengthMismatch
      else
        let sum ← checksumOk p read pl
        if sum then extract read pl else return .fail .checksumError
    else return .fail .badPreamble

/-- `decodeHW(IBUF, ILEN, IOVF)` (R77): the decode of the block's input buffer. -/
def decodeHW (p : Params) (s : State) : Except Fault FrameResult :=
  decodeFrame p s.ilen.toNat s.iovf s.inputByte

/-- `decodeFn(V)` (R71, R77): the same algorithm over a byte sequence, with IOVF taken as 0. -/
def decodeFn (p : Params) (v : List Byte) : Except Fault FrameResult :=
  decodeFrame p v.length false (seqByte v)

end Sys2Proof.Machine
end

