-- ==== Sys2Proof/Machine/Commands.lean ====
section
/-! DEFINITION. The meanings of the three commands PUSH, CLEAR and DECODE (spec/40_input_commands.md,
spec/41_decode.md section 2), and the decoder agent's step, DECODE completion. -/

namespace Sys2Proof.Machine

/-- `PUSH b` (R63, R64, R65). -/
def execPush (b : Byte) (s : State) : Host.Outcome State Fault Refusal :=
  whenReady s (s.pushByte b)

/-- `CLEAR` (R69). -/
def execClear (s : State) : Host.Outcome State Fault Refusal :=
  whenReady s s.emptyInput

/-- `DECODE`, acceptance (R75): BUSY rises and nothing else changes. Its second transition is
`completeDecode`. -/
def execDecode (s : State) : Host.Outcome State Fault Refusal :=
  whenReady s s.raiseBusy

/-- Write-back of a decode result: the failure write-back (R86) or the success write-back (R87), which writes
only indices that PBUF has. -/
def writeBack (s : State) : FrameResult → Except Fault State
  | .fail o => .ok (s.writeFailure o)
  | .ok c st params =>
    if params.length ≤ pbufCap then .ok (s.writeMessage c st params)
    else .error (.writePastParams params.length)

/-- `DECODE`, completion with the static parameters `p` (R76): decode, write back, release the input (R88),
lower BUSY, all in one transition. -/
def completeWith (p : Params) (s : State) : Host.Outcome State Fault Refusal :=
  match decodeHW p s with
  | .error f => .fault f
  | .ok r =>
    match writeBack s r with
    | .error f => .fault f
    | .ok t => .next t.emptyInput.lowerBusy

/-- The decoder agent's only step (R123), with this block's static parameters. Enabled exactly when BUSY is 1:
`nextAction` asks for it then only. -/
def completeDecode (s : State) : Host.Outcome State Fault Refusal :=
  completeWith Params.device s

end Sys2Proof.Machine
end

