-- ==== Sys2Proof/Machine/Readout.lean ====
section
/-! DEFINITION. Result readout and vocabularies (spec/42_readout.md). -/

namespace Sys2Proof.Machine

/-- The byte the read port returns (R96): `if i < PCOUNT then PBUF[i] else 0x00`. PBUF has no index at or above
65533, and those indices always read 0x00 (R96; notes/assumptions/13.md). -/
def State.paramByte (s : State) (i : Half) : Byte :=
  if i.toNat < s.pcount.toNat ∧ i.toNat < pbufCap then s.pbuf.read i.toNat else 0

/-- `RD_PARAM(i)` (R96): the host gets the byte back; the block does not change (R38). It is no command word, so
BUSY does not hold it (R97). -/
def execRdParam (i : Half) (s : State) : Host.Outcome State Fault Refusal :=
  .next (s.recordRead (.param i (s.paramByte i)))

/-- A read of an output port (R97): its current value at its full width. -/
def State.portValue (s : State) : Port → HostRead
  | .busy => .busy s.busy
  | .result => .result s.result
  | .msgValid => .msgValid s.msgValid
  | .cmd => .cmd s.cmd
  | .status => .status s.status
  | .pcount => .pcount s.pcount
  | .ilen => .ilen s.ilen
  | .iovf => .iovf s.iovf

/-- The parameters `RD_PARAM(0) ... RD_PARAM(PCOUNT - 1)` (R97). -/
def State.params (s : State) : List Byte :=
  (List.range s.pcount.toNat).map fun i => s.paramByte (BitVec.ofNat 16 i)

/-- The DecodedMessage of the last DECODE, which exists only when MSG_VALID is 1 (R24, R97). -/
def State.message (s : State) : Option (Byte × Half × List Byte) :=
  if s.msgValid then some (s.cmd, s.status, s.params) else none

/-! ### StatusCode -/

/-- A classified Status Code (R99): a known name, or the raw number. -/
inductive StatusClass where
  | known (n : StatusName)
  | unknown (raw : Half)
deriving DecidableEq, Repr

/-- `statusClass(raw)` (R99): total, never fails. -/
def statusClass (raw : Half) : StatusClass :=
  match Config.knownStatus raw with
  | some n => .known n
  | none => .unknown raw

/-! ### StateFlag -/

/-- The StateFlag word a driver reads from parameter bytes `k` to `k + 3`, little-endian, only when
`k + 4 <= PCOUNT` (R103). No bit is masked (R104). -/
def State.stateFlagWord (s : State) (k : Nat) : Option (BitVec 32) :=
  if k + 4 ≤ s.pcount.toNat then
    some (BitVec.ofNat 32 (littleEndian
      [s.paramByte (BitVec.ofNat 16 k), s.paramByte (BitVec.ofNat 16 (k + 1)),
       s.paramByte (BitVec.ofNat 16 (k + 2)), s.paramByte (BitVec.ofNat 16 (k + 3))]))
  else none

/-- Whether a StateFlag word has the flag set, at the position SF_BIT gives it (R102). -/
def stateFlagSet (word : BitVec 32) (f : StateFlag) : Bool := word.getLsbD (Config.sfBit f).val

/-- The 21 meaningful bits of a StateFlag word (R101). -/
def stateFlagMeaningful (word : BitVec 32) : BitVec 32 := word &&& sfMeaningfulMask

end Sys2Proof.Machine
end

