-- ==== Sys2Proof/WellFormed.lean ====
section
/-! DEFINITION. Which terms of `Syntax.lean` are well formed: what the host may send. -/

namespace Sys2Proof

/-- Every operand value of every instruction is legal: PUSH takes any byte (R63), RD_PARAM any 16-bit index
(R96). The widths stand in the type of `Instr`. -/
def Instr.wellFormed : Instr → Bool
  | .push _ => true
  | .decode => true
  | .clear => true
  | .rdParam _ => true

/-- The host must not issue a reserved command word (R57, R132): the opcode CW[15:8] is 1, 2 or 3. Every
index is legal on the read port. -/
def Request.wellFormed : Request → Bool
  | .command w => (w.toNat / 256 == 1) || (w.toNat / 256 == 2) || (w.toNat / 256 == 3)
  | .readIndex _ => true

/-- `n` is an `<imm8>`: a number 0 to 255 (R60). -/
def imm8 (n : Nat) : Bool := n < 256

/-- `n` fits a 16-bit field (R45). -/
def imm16 (n : Nat) : Bool := n < 65536

/-- The ranges of a program line: bytes 0 to 255 (R60), status and checksum 16 bits, and no more parameters
than a frame can carry (R95: a longer sequence cannot be framed). DESIGN CHOICE (notes/assumptions/15.md): R62
writes PUSHB with at least `b0` and does not speak of an empty list; here PUSHB with no operand is well formed and
expands to no command. -/
def AsmLine.wellFormed : AsmLine → Bool
  | .push imm => imm8 imm
  | .decode => true
  | .clear => true
  | .wait => true
  | .pushb bytes => bytes.all imm8
  | .frame cmd st params k =>
    imm8 cmd && imm16 st && params.all imm8 && imm16 k && decide (params.length ≤ Machine.maxParams)
  | .framec cmd st params =>
    imm8 cmd && imm16 st && params.all imm8 && decide (params.length ≤ Machine.maxParams)
  | .dec => true

end Sys2Proof
end

