-- ==== Sys2Proof/Decode.lean ====
section
/-! DEFINITION. From the bits on the block's ports to instructions and back (spec/30_encoding.md section 2), and
the program text of section 3. -/

namespace Sys2Proof

/-- `OP`, the opcode field CW[15:8] (R55). -/
def opField (w : Half) : Byte := w.extractLsb' 8 8

/-- `DATA`, the data field CW[7:0] (R55). -/
def dataField (w : Half) : Byte := w.extractLsb' 0 8

/-- The command word with opcode `op` and data `data`: `(OP << 8) | DATA` (R60). -/
def commandWord (op data : Byte) : Half := (op.setWidth 16 <<< 8) ||| data.setWidth 16

/-- Why a request has no instruction. -/
inductive DecodeError where
  /-- opcode 0x00 or 0x04 to 0xFF (R57). -/
  | reservedOpcode (w : Half)
deriving DecidableEq, Repr

/-- The opcode map of R56. DATA is PUSH's byte as it stands (R59) and is ignored for DECODE and CLEAR (R58). -/
def decodeCommand (w : Half) : Except DecodeError Instr :=
  if opField w = 0x01 then .ok (.push (dataField w))
  else if opField w = 0x02 then .ok .decode
  else if opField w = 0x03 then .ok .clear
  else .error (.reservedOpcode w)

/-- The instruction the host asks for on either port: a command word by the opcode map, an index on the read
port as RD_PARAM (R96). Total. -/
def decodeRequest : Request → Except DecodeError Instr
  | .command w => decodeCommand w
  | .readIndex i => .ok (.rdParam i)

/-- The encoder: what the host drives for an instruction. The assembler writes 0 in an ignored DATA field
(R58, R60). -/
def encode : Instr → Request
  | .push b => .command (commandWord 0x01 b)
  | .decode => .command (commandWord 0x02 0)
  | .clear => .command (commandWord 0x03 0)
  | .rdParam i => .readIndex i

/-- The word that `nbits` bits of `w` put on the 16-bit command port: bits above `nbits` are 0. -/
def portWord (nbits w : Nat) : Half := BitVec.ofNat 16 (w % 2 ^ nbits)

/-- The instruction the decoder reads from an opcode-table row's bits. Every command is exactly one 16-bit
word (R55), so a longer row is none; RD_PARAM's row has no word. -/
def decodeTableWord (nbits w : Nat) : Option Instr :=
  if nbits ≤ 16 then
    match decodeCommand (portWord nbits w) with
    | .ok i => some i
    | .error _ => none
  else none

/-! ### Program text (R60) -/

/-- The text of a line before its comment: a comment runs from `;` to the end of the line (R60). -/
def stripComment (cs : List Char) : List Char := cs.takeWhile (· ≠ ';')

/-- Splits at spaces and tabs; `word` is the word being read, reversed. -/
def wordsFrom : List Char → List Char → List (List Char)
  | [], word => if word.isEmpty then [] else [word.reverse]
  | c :: cs, word =>
    if c = ' ' ∨ c = '\t' then
      if word.isEmpty then wordsFrom cs [] else word.reverse :: wordsFrom cs []
    else wordsFrom cs (c :: word)

/-- The value of a digit in base 10 or 16, either case of letter. -/
def digitValue (base : Nat) (c : Char) : Option Nat :=
  let n := c.toNat
  let v :=
    if 48 ≤ n ∧ n ≤ 57 then n - 48
    else if 97 ≤ n ∧ n ≤ 102 then n - 87
    else if 65 ≤ n ∧ n ≤ 70 then n - 55
    else base
  if v < base then some v else none

/-- A digit string continued from the value `acc`. -/
def digitsFrom (base acc : Nat) : List Char → Option Nat
  | [] => some acc
  | c :: cs =>
    match digitValue base c with
    | some v => digitsFrom base (acc * base + v) cs
    | none => none

/-- A number written decimal or with a `0x` prefix (R60). -/
def parseNumber : List Char → Option Nat
  | '0' :: 'x' :: c :: cs => digitsFrom 16 0 (c :: cs)
  | c :: cs => digitsFrom 10 0 (c :: cs)
  | [] => none

/-- One line of program text: `PUSH <imm8>`, `DECODE`, `CLEAR` (R60), and the host step `WAIT` (R61). -/
def parseLine (cs : List Char) : ParsedLine :=
  match wordsFrom (stripComment cs) [] with
  | [] => .blank
  | [['D', 'E', 'C', 'O', 'D', 'E']] => .line .decode
  | [['C', 'L', 'E', 'A', 'R']] => .line .clear
  | [['W', 'A', 'I', 'T']] => .line .wait
  | [['P', 'U', 'S', 'H'], number] =>
    match parseNumber number with
    | some n => if imm8 n then .line (.push n) else .rejected
    | none => .rejected
  | _ => .rejected

end Sys2Proof
end

