-- ==== Sys2Proof/Machine/Fetch.lean ====
section
/-! DEFINITION. Which agent moves next and what it does (spec/70_reset_and_hazards.md R123, R126, R132): the place
where the step takes its next instruction from. The block fetches nothing itself (spec/10_state.md R14). -/

namespace Sys2Proof.Machine

/-- What happens in the next step. -/
inductive Action where
  /-- nothing is offered and no DECODE is in flight: all state persists (R120). -/
  | idle
  /-- the decoder agent completes the DECODE in flight (R123). -/
  | complete
  /-- WAIT reads BUSY as 0 and is over (R61). -/
  | endWait
  /-- reset is asserted (R121). -/
  | reset
  /-- the host reads an output port (R97). -/
  | readPort (p : Port)
  /-- the block takes an instruction. -/
  | run (i : Instr)
  /-- a reserved command word comes to acceptance (R57). -/
  | refuse (w : Half)
deriving DecidableEq, Repr

/-- An offered request comes to the block. -/
def acceptRequest (r : Request) : Action :=
  match decodeRequest r with
  | .ok i => .run i
  | .error (.reservedOpcode w) => .refuse w

/-- Whether BUSY holds a request: a command word, but not a read (R126, R97). -/
def heldWhileBusy : Request → Bool
  | .command _ => true
  | .readIndex _ => false

/-- The next action, from the oldest event of the schedule. While BUSY is 1 the host may read and reset; a
command word is held and WAIT goes on, so the decoder agent moves; with nothing left for the host to do, it moves
too (R123; notes/assumptions/3.md). -/
def nextAction (s : State) : Action :=
  match s.schedule with
  | [] => if s.busy then .complete else .idle
  | .wait :: _ => if s.busy then .complete else .endWait
  | .reset :: _ => .reset
  | .readPort p :: _ => .readPort p
  | .request r :: _ => if s.busy && heldWhileBusy r then .complete else acceptRequest r

/-- The state after a reset event. -/
def afterReset (s : State) : State := s.takeEvent.resetInput

/-- The state after a port read. -/
def afterPortRead (s : State) (p : Port) : State := s.takeEvent.recordRead (s.portValue p)

/-- The host offers the command word given by an opcode-table row's bits, before anything else it does. -/
def offerWord (s : State) (nbits w : Nat) : State :=
  { s with schedule := .request (.command (portWord nbits w)) :: s.schedule }

end Sys2Proof.Machine
end

