-- ==== Sys2Proof/Machine/Step.lean ====
section
/-! DEFINITION. One transition of the block and its host (spec/00_scope.md R6, spec/20_memory.md R37, R41). -/

namespace Sys2Proof.Machine

/-- One atomic transition: of the host, or of the decoder agent. -/
def step (s : State) : Host.Outcome State Fault Refusal :=
  match nextAction s with
  | .idle => .next s
  | .complete => completeDecode s
  | .endWait => .next s.takeEvent
  | .reset => .next (afterReset s)
  | .readPort p => .next (afterPortRead s p)
  | .run i => exec i s.takeEvent
  | .refuse w => .refused (.reservedCommand w)

/-- `s` with the command word offered first on the command port (notes/assumptions/2.md). -/
def State.withFetchWord (s : State) (nbits w : Nat) : State := offerWord s nbits w

end Sys2Proof.Machine
end

