-- ==== Sys2Proof/Machine/HostProgram.lean ====
section
/-! DEFINITION. The response frame as bytes (spec/30_encoding.md R45), and the host-program notation of R60 to
R62 as the host's events. -/

namespace Sys2Proof.Machine

/-- The Payload Length field of a frame with `params` (R45): the parameter count plus 2. -/
def payloadLength (params : List Byte) : Nat := params.length + minPlen

/-- The bytes `F[0, PL + 6)` of a frame (R45): preamble, Command ID, Payload Length, Status Code and
Parameters; what the checksum covers (R48). -/
def frameBody (cmd : Byte) (st : Half) (params : List Byte) : List Byte :=
  List.replicate preambleLen preambleByte ++ [cmd] ++ leBytes 2 (payloadLength params) ++ leBytes 2 st.toNat
    ++ params

/-- A frame with the Checksum field `k` (R45, R62: FRAME). -/
def frameBytes (cmd : Byte) (st : Half) (params : List Byte) (k : Half) : List Byte :=
  frameBody cmd st params ++ leBytes 2 k.toNat

/-- A frame whose Checksum field is right (R62: FRAMEC, the test-fixture encoder). -/
def frameBytesC (p : Params) (cmd : Byte) (st : Half) (params : List Byte) : List Byte :=
  frameBytes cmd st params (p.checksum16 (frameBody cmd st params))

/-- The host offers an instruction. -/
def offer (i : Instr) : Event := .request (encode i)

/-- The host pushes bytes, first byte first (R62: PUSHB). -/
def pushAll (bytes : List Byte) : List Event := bytes.map fun b => offer (.push b)

/-- A number of the notation as a byte. -/
def asByte (n : Nat) : Byte := BitVec.ofNat 8 n

/-- The expansion of a program line into the host's events (R60, R61, R62), with the static parameters that
FRAMEC's checksum takes. -/
def lineEvents (p : Params) : AsmLine → List Event
  | .push imm => [offer (.push (asByte imm))]
  | .decode => [offer .decode]
  | .clear => [offer .clear]
  | .wait => [.wait]
  | .pushb bytes => pushAll (bytes.map asByte)
  | .frame cmd st params k =>
    pushAll (frameBytes (asByte cmd) (BitVec.ofNat 16 st) (params.map asByte) (BitVec.ofNat 16 k))
  | .framec cmd st params => pushAll (frameBytesC p (asByte cmd) (BitVec.ofNat 16 st) (params.map asByte))
  | .dec => [offer .decode, .wait]

/-- A host program: its lines' events in order. -/
def programEvents (p : Params) (lines : List AsmLine) : List Event := lines.flatMap (lineEvents p)

end Sys2Proof.Machine
end

