-- ==== Sys2Proof/Safety.lean ====
section
/-! DEFINITION. What claims are stated in: legal states, the host's duty, the end of a run and its observation, the
virtual buffer, hidden state, and the named properties of a checksum. -/

namespace Sys2Proof.Machine

/-! ### Legal states -/

/-- The five clauses that every reachable state satisfies (R25). -/
structure State.Legal (s : State) : Prop where
  ilen_le : s.ilen.toNat ≤ ibufCap
  full_of_overflow : s.iovf = true → s.ilen.toNat = ibufCap
  pcount_le : s.pcount.toNat ≤ pbufCap
  result_ne : s.result ≠ 7
  no_message : s.result ≠ resultOk → s.cmd = 0 ∧ s.status = 0 ∧ s.pcount = 0

/-- Both byte stores are in canonical form and list only indices they have (R30). -/
structure State.StoresCanonical (s : State) : Prop where
  ibuf_wf : s.ibuf.wf
  ibuf_within : s.ibuf.within ibufCap
  pbuf_wf : s.pbuf.wf
  pbuf_within : s.pbuf.within pbufCap

/-! ### The host -/

/-- An event the host may send: every request is well formed (R57, R132). -/
def Event.dutiful : Event → Bool
  | .request r => r.wellFormed
  | .readPort _ => true
  | .wait => true
  | .reset => true

/-- The host never issues a reserved command word (R132). -/
def State.HostDutiful (s : State) : Prop := ∀ e ∈ s.schedule, e.dutiful = true

/-- A run has ended when the host has nothing left to do and BUSY is 0 (R133). -/
def State.RunEnded (s : State) : Prop := s.schedule = [] ∧ s.busy = false

/-- What R133 observes at the end of a run: every port of R27, and RD_PARAM at every index. -/
structure Observation where
  busy : Bool
  result : BitVec 3
  msgValid : Bool
  cmd : Byte
  status : Half
  pcount : Half
  ilen : Len
  iovf : Bool
  param : Half → Byte

/-- The observation of a state (R133). -/
def State.observe (s : State) : Observation :=
  ⟨s.busy, s.result, s.msgValid, s.cmd, s.status, s.pcount, s.ilen, s.iovf, s.paramByte⟩

/-- `n` steps of the machine, stopping at the first fault or refusal: the host's own `Host.Core.run`. -/
def runFor (n : Nat) (s : State) : Host.Outcome State Fault Refusal := Host.Core.run Sys2Proof.core n s

/-! ### Frames of transitions -/

/-- `t` has the result side of `s`: RESULT, CMD, STATUS, PCOUNT and every byte of PBUF. -/
def SameResult (s t : State) : Prop :=
  t.result = s.result ∧ t.cmd = s.cmd ∧ t.status = s.status ∧ t.pcount = s.pcount ∧
    ∀ a, t.pbuf.read a = s.pbuf.read a

/-- `t` has the input side of `s`: ILEN, IOVF and every byte of IBUF. -/
def SameInput (s t : State) : Prop :=
  t.ilen = s.ilen ∧ t.iovf = s.iovf ∧ ∀ a, t.ibuf.read a = s.ibuf.read a

/-- `t` has the host's side of `s`. -/
def SameHost (s t : State) : Prop := t.schedule = s.schedule ∧ t.received = s.received

/-- `t` shows the message of a decode result: its write-back as the ports show it (R86, R87). -/
def ShowsResult (t : State) : FrameResult → Prop
  | .fail o => t.result = o.code ∧ t.cmd = 0 ∧ t.status = 0 ∧ t.pcount = 0 ∧ t.message = none
  | .ok c st params =>
    t.result = resultOk ∧ t.cmd = c ∧ t.status = st ∧ t.pcount.toNat = params.length ∧
      t.message = some (c, st, params)

/-- The input side is empty and no DECODE is in flight: a new virtual buffer starts at index 0 (R88). -/
def State.InputEmpty (s : State) : Prop := s.ilen = 0 ∧ s.iovf = false ∧ s.busy = false

/-! ### The virtual buffer -/

/-- The input side of `s` is the bounded view of the virtual buffer `v` (R67). -/
structure ViewOf (v : List Byte) (s : State) : Prop where
  ilen_eq : s.ilen.toNat = min v.length ibufCap
  byte_eq : ∀ i, i < s.ilen.toNat → v[i]? = some (s.ibuf.read i)
  iovf_iff : s.iovf = true ↔ ibufCap < v.length

/-- The virtual buffer after the next step (R66): a PUSH accepted appends its byte; CLEAR, DECODE completion and
reset start a new one. -/
def virtualAfter (v : List Byte) (s : State) : List Byte :=
  match nextAction s with
  | .run (.push b) => if s.busy then v else v ++ [b]
  | .run .clear => if s.busy then v else []
  | .complete => []
  | .reset => []
  | _ => v

/-- The virtual buffer after `n` steps from `s`, where it is `v` (R66). -/
def virtualFor : Nat → List Byte → State → List Byte
  | 0, v, _ => v
  | n + 1, v, s =>
    match step s with
    | .next t => virtualFor n (virtualAfter v s) t
    | .fault _ => v
    | .refused _ => v

/-! ### The checks, declared -/

/-- The result of R77 for `len` bytes `byte 0`, `byte 1`, …: the outcome of the first failing check in the order
1 to 5 (R78 to R82, R85), else the message (R83). 16-bit fields are `hi ++ lo` (R32, R45). -/
def expectedResult (p : Params) (len : Nat) (overflow : Bool) (byte : Nat → Byte) : FrameResult :=
  let pl := (byte 5 ++ byte 4 : Half).toNat
  if len < 10 then .fail .frameTooShort
  else if byte 0 ≠ 0xAA ∨ byte 1 ≠ 0xAA ∨ byte 2 ≠ 0xAA then .fail .badPreamble
  else if pl < 2 then .fail .payloadTooSmall
  else if overflow = true ∨ len ≠ pl + 8 then .fail .lengthMismatch
  else if p.checksumEnable = true ∧
      (byte (pl + 7) ++ byte (pl + 6) : Half) ≠ p.checksum16 ((List.range (pl + 6)).map byte) then
    .fail .checksumError
  else .ok (byte 3) (byte 7 ++ byte 6) ((List.range (pl - 2)).map fun k => byte (8 + k))

/-! ### Hidden state -/

/-- `s` and `t` differ at most in hidden bytes: IBUF at or above ILEN, PBUF at or above PCOUNT (R29). -/
structure SameButHidden (s t : State) : Prop where
  ilen : t.ilen = s.ilen
  iovf : t.iovf = s.iovf
  busy : t.busy = s.busy
  result : t.result = s.result
  cmd : t.cmd = s.cmd
  status : t.status = s.status
  pcount : t.pcount = s.pcount
  schedule : t.schedule = s.schedule
  received : t.received = s.received
  ibuf : ∀ i, i < s.ilen.toNat → t.ibuf.read i = s.ibuf.read i
  pbuf : ∀ i, i < s.pcount.toNat → t.pbuf.read i = s.pbuf.read i

/-- Two outcomes of a step that differ at most in hidden bytes of the next state. -/
def SameOutcome : Host.Outcome State Fault Refusal → Host.Outcome State Fault Refusal → Prop
  | .next s, .next t => SameButHidden s t
  | .fault f, .fault g => f = g
  | .refused q, .refused r => q = r
  | _, _ => False

/-! ### The checksum -/

/-- `bytes` with bit `j` of byte `i` flipped. -/
def flipBit (bytes : List Byte) (i j : Nat) : List Byte := bytes.modify i fun b => b ^^^ (1#8 <<< j)

/-- SINGLE_BIT_DETECT (R94). -/
def SingleBitDetect (checksum : List Byte → Half) : Prop :=
  ∀ (bytes : List Byte) (i j : Nat), 8 ≤ bytes.length → 6 ≤ i → i < bytes.length → j < 8 →
    checksum bytes ≠ checksum (flipBit bytes i j)

/-- SINGLE_BIT_DETECT_ALL (R94): the same over every index. -/
def SingleBitDetectAll (checksum : List Byte → Half) : Prop :=
  ∀ (bytes : List Byte) (i j : Nat), 8 ≤ bytes.length → i < bytes.length → j < 8 →
    checksum bytes ≠ checksum (flipBit bytes i j)

end Sys2Proof.Machine
end

