-- ==== Sys2Proof/Certificates/Slice0/Obligations.lean ====
section
/-! DEFINITION. The statements for the provers. Each says which rule of spec/ it formalises. A statement that reads
IBUF or PBUF after a write takes the canonical form of that store as a premise: the invariant
`StepKeepsStoresCanonical` says that every step keeps it. -/

open Sys2Proof Sys2Proof.Machine

/-! ## Encoding -/

/-- Command words of 95_test_vectors.md V7 and of the examples of R63, R69, R75, decoded. -/
def Obligations.TabledCommandWordsDecode : Prop :=
  decodeCommand 0x0100 = .ok (.push 0x00) ∧ decodeCommand 0x01FF = .ok (.push 0xFF) ∧
  decodeCommand 0x01AA = .ok (.push 0xAA) ∧
  decodeCommand 0x0200 = .ok .decode ∧ decodeCommand 0x0201 = .ok .decode ∧
  decodeCommand 0x02FF = .ok .decode ∧
  decodeCommand 0x0300 = .ok .clear ∧ decodeCommand 0x03FF = .ok .clear ∧
  decodeCommand 0x0000 = .error (.reservedOpcode 0x0000) ∧
  decodeCommand 0x00AA = .error (.reservedOpcode 0x00AA) ∧
  decodeCommand 0x0400 = .error (.reservedOpcode 0x0400) ∧
  decodeCommand 0xFF00 = .error (.reservedOpcode 0xFF00)

/-- R56 as match and mask over the 16-bit word, with R57 for every other word: no word falls through to a
neighbour. -/
def Obligations.CommandWordsFollowTheOpcodeMap : Prop :=
  ∀ w : Half,
    (w &&& 0xFF00 = 0x0100 → decodeCommand w = .ok (.push (w.setWidth 8))) ∧
    (w &&& 0xFF00 = 0x0200 → decodeCommand w = .ok .decode) ∧
    (w &&& 0xFF00 = 0x0300 → decodeCommand w = .ok .clear) ∧
    (w &&& 0xFF00 ≠ 0x0100 ∧ w &&& 0xFF00 ≠ 0x0200 ∧ w &&& 0xFF00 ≠ 0x0300 →
      decodeCommand w = .error (.reservedOpcode w))

/-- R58: for DECODE and CLEAR the DATA field is ignored, and the assembler writes 0 there. -/
def Obligations.DataFieldIgnoredByDecodeAndClear : Prop :=
  (∀ data : Byte, decodeCommand (commandWord 0x02 data) = .ok .decode ∧
    decodeCommand (commandWord 0x03 data) = .ok .clear) ∧
  encode .decode = .command 0x0200 ∧ encode .clear = .command 0x0300

/-- Decode and encode agree: every instruction's request is well formed and decodes to it; the requests that
decode are exactly the well-formed ones; and a request that decodes to PUSH or RD_PARAM is that instruction's
encoding, so no bit of theirs is dropped. -/
def Obligations.DecodeAndEncodeAgree : Prop :=
  (∀ i : Instr, i.wellFormed = true → (encode i).wellFormed = true ∧ decodeRequest (encode i) = .ok i) ∧
  (∀ r : Request, r.wellFormed = true ↔ ∃ i, decodeRequest r = .ok i) ∧
  (∀ (r : Request) (i : Instr), decodeRequest r = .ok i → i ≠ .decode → i ≠ .clear → encode i = r)

/-! ## The commands -/

/-- R63: PUSH at acceptance, its encoding, what it stores, and that nothing else changes; any byte value is stored
alike. -/
def Obligations.PushAppendsOneByte : Prop :=
  ∀ (b : Byte) (s : State), s.busy = false → s.ibuf.wf →
    encode (.push b) = .command (0x0100 ||| b.setWidth 16) ∧
    ∃ t, exec (.push b) s = .next t ∧
      (if s.ilen.toNat < 65543 then
        t.ibuf.read s.ilen.toNat = b ∧ (∀ a, a ≠ s.ilen.toNat → t.ibuf.read a = s.ibuf.read a) ∧
        t.ilen.toNat = s.ilen.toNat + 1 ∧ t.iovf = s.iovf
      else
        t.iovf = true ∧ t.ilen = s.ilen ∧ ∀ a, t.ibuf.read a = s.ibuf.read a) ∧
      t.busy = false ∧ SameResult s t ∧ SameHost s t

/-- R64: PUSH on a full buffer drops the byte and sets IOVF, which stays 1 through further PUSH commands until CLEAR,
DECODE completion or reset; and the next DECODE reports LENGTH_MISMATCH unless check 1, 2 or 3 fails first. -/
def Obligations.PushOnAFullBufferOverflows : Prop :=
  (∀ (b : Byte) (s : State), s.busy = false → s.ilen.toNat = 65543 →
    ∃ t, exec (.push b) s = .next t ∧ t.iovf = true ∧ t.ilen.toNat = 65543 ∧
      (∀ a, t.ibuf.read a = s.ibuf.read a) ∧ t.busy = false ∧ SameResult s t ∧ SameHost s t) ∧
  (∀ (b : Byte) (s t : State), s.iovf = true → exec (.push b) s = .next t → t.iovf = true) ∧
  (∀ s t : State, s.iovf = true → step s = .next t → t.iovf = false →
    (s.busy = true ∧ completeDecode s = .next t) ∨ (∃ es, s.schedule = .reset :: es) ∨
    (s.busy = false ∧ ∃ w es, s.schedule = .request (.command w) :: es ∧ w &&& 0xFF00 = 0x0300)) ∧
  (∀ (p : Params) (s : State), s.iovf = true →
    ∃ o, decodeHW p s = .ok (.fail o) ∧ o ≠ .checksumError ∧
      (o = .frameTooShort ↔ s.ilen.toNat < 10) ∧
      (o = .badPreamble ↔ 10 ≤ s.ilen.toNat ∧
        ¬(s.ibuf.read 0 = 0xAA ∧ s.ibuf.read 1 = 0xAA ∧ s.ibuf.read 2 = 0xAA)) ∧
      (o = .payloadTooSmall ↔ 10 ≤ s.ilen.toNat ∧
        (s.ibuf.read 0 = 0xAA ∧ s.ibuf.read 1 = 0xAA ∧ s.ibuf.read 2 = 0xAA) ∧
        (s.ibuf.read 5 ++ s.ibuf.read 4 : Half).toNat < 2))

/-- R69: CLEAR empties the input side and changes nothing else; no byte of IBUF is written; while BUSY is 1 it is
held. -/
def Obligations.ClearEmptiesTheInput : Prop :=
  encode .clear = .command 0x0300 ∧
  (∀ s : State, s.busy = false →
    ∃ t, exec .clear s = .next t ∧ t.ilen = 0 ∧ t.iovf = false ∧
      (∀ a, t.ibuf.read a = s.ibuf.read a) ∧ t.busy = false ∧ SameResult s t ∧ SameHost s t) ∧
  (∀ s : State, s.busy = true → exec .clear s = .next s)

/-- R75: DECODE's acceptance raises BUSY, and no other state changes; on an empty buffer its completion is
FRAME_TOO_SHORT; while BUSY is 1 it is held. -/
def Obligations.DecodeAcceptanceRaisesBusy : Prop :=
  encode .decode = .command 0x0200 ∧
  (∀ s : State, s.busy = false →
    ∃ t, exec .decode s = .next t ∧ t.busy = true ∧ SameInput s t ∧ SameResult s t ∧ SameHost s t) ∧
  (∀ (p : Params) (s : State), s.ilen = 0 → decodeHW p s = .ok (.fail .frameTooShort)) ∧
  (∀ s : State, s.busy = true → exec .decode s = .next s)

/-- From R96: RD_PARAM gives the host the byte of PBUF below PCOUNT and 0x00 at or above it, whether or not BUSY is
1, and changes nothing of the block. Indices 65533 to 65535 read 0x00. PCOUNT is legal (R22); the legality is the
invariant `StepKeepsStateLegal`. That the value read stands at the head of `received` is the model's choice, no rule
of the spec (notes/assumptions/12.md). -/
def Obligations.RdParamReadsOneByte : Prop :=
  ∀ (i : Half) (s : State), s.pcount.toNat ≤ 65533 →
    encode (.rdParam i) = .readIndex i ∧
    ∃ v t, exec (.rdParam i) s = .next t ∧
      v = (if i.toNat < s.pcount.toNat then s.pbuf.read i.toNat else 0x00) ∧
      (65533 ≤ i.toNat → v = 0x00) ∧
      t.received = .param i v :: s.received ∧ t.schedule = s.schedule ∧ t.busy = s.busy ∧
      SameInput s t ∧ SameResult s t

/-- R126, R65 and 95_test_vectors.md V3-9: a command word offered while BUSY is 1 changes no state; the step is the
decoder agent's completion, after which the same command stands at the port, is accepted and meets an empty
input. -/
def Obligations.CommandsAreHeldWhileBusy : Prop :=
  (∀ s : State, s.busy = true →
    (∀ b, exec (.push b) s = .next s) ∧ exec .decode s = .next s ∧ exec .clear s = .next s) ∧
  (∀ (s : State) (w : Half) (i : Instr) (es : List Event), s.busy = true →
    s.schedule = .request (.command w) :: es → decodeCommand w = .ok i →
    ∃ t, step s = .next t ∧ completeDecode s = .next t ∧ t.busy = false ∧ t.ilen = 0 ∧ t.iovf = false ∧
      t.schedule = s.schedule ∧ step t = exec i t.takeEvent)

/-! ## DECODE completion -/

/-- R77 with R85: the block's parser gives the first failing check's outcome, in the order 1 to 5, or the extracted
message, for every input buffer, every setting of the parameters and every checksum algorithm; the document's
function is the same over a byte sequence, with IOVF taken as 0. `expectedResult` declares the checks. -/
def Obligations.ParserReportsTheFirstFailure : Prop :=
  (∀ (p : Params) (s : State),
    decodeHW p s = .ok (expectedResult p s.ilen.toNat s.iovf s.ibuf.read)) ∧
  (∀ (p : Params) (v : List Byte),
    decodeFn p v = .ok (expectedResult p v.length false fun i => (v[i]?).getD 0))

/-- R86: the write-back of a failure: its code of R19 in RESULT, no message, PBUF not written. With it the input is
released (R88) and BUSY falls (R76). -/
def Obligations.FailureWriteBack : Prop :=
  ∀ (p : Params) (s : State) (o : Failure), decodeHW p s = .ok (.fail o) →
    ∃ t, completeWith p s = .next t ∧
      t.result = (match o with
        | .frameTooShort => 2 | .badPreamble => 3 | .payloadTooSmall => 4 | .lengthMismatch => 5
        | .checksumError => 6) ∧
      t.cmd = 0 ∧ t.status = 0 ∧ t.pcount = 0 ∧ t.msgValid = false ∧
      (∀ a, t.pbuf.read a = s.pbuf.read a) ∧ (∀ a, t.ibuf.read a = s.ibuf.read a) ∧
      t.ilen = 0 ∧ t.iovf = false ∧ t.busy = false ∧ SameHost s t

/-- R87: the write-back of a message: the parameter count, every parameter byte in PBUF, and no other byte of PBUF
changed. With it the input is released (R88) and BUSY falls (R76). -/
def Obligations.SuccessWriteBack : Prop :=
  ∀ (p : Params) (s : State) (c : Byte) (st : Half) (params : List Byte), s.pbuf.wf →
    decodeHW p s = .ok (.ok c st params) →
    ∃ t, completeWith p s = .next t ∧ t.result = 1 ∧ t.cmd = c ∧ t.status = st ∧
      t.pcount.toNat = params.length ∧ t.pcount.toNat ≤ 65533 ∧
      (∀ k b, params[k]? = some b → t.pbuf.read k = b) ∧
      (∀ a, params.length ≤ a → t.pbuf.read a = s.pbuf.read a) ∧
      (∀ a, t.ibuf.read a = s.ibuf.read a) ∧
      t.message = some (c, st, params) ∧
      t.ilen = 0 ∧ t.iovf = false ∧ t.busy = false ∧ SameHost s t

/-- From R73 for the byte sequence, R90 for the block and R52 for the machine: the decode function answers for every
byte sequence and every state, so no read of it lies outside the sequence or at or above ILEN; a sequence shorter
than 10 bytes fails with FRAME_TOO_SHORT; and no step of the machine faults. That a read outside answers an error,
and a step that made one a fault, is the model's own check, no rule of the spec (notes/assumptions/11.md). -/
def Obligations.DecodeNeverReadsOutsideTheInput : Prop :=
  (∀ (p : Params) (v : List Byte), ∃ r, decodeFn p v = .ok r) ∧
  (∀ (p : Params) (v : List Byte), v.length < 10 → decodeFn p v = .ok (.fail .frameTooShort)) ∧
  (∀ (p : Params) (s : State), ∃ r, decodeHW p s = .ok r) ∧
  (∀ (s : State) (f : Fault), step s ≠ .fault f)

/-- R26: a completion's result is a function of IBUF below ILEN, of ILEN and of IOVF: two states that agree there
complete with the same RESULT, CMD, STATUS, PCOUNT and message, whatever an earlier DECODE left; it then empties the
input side. -/
def Obligations.DecodesAreIndependent : Prop :=
  ∀ (p : Params) (s s' t t' : State), s.pbuf.wf → s'.pbuf.wf →
    s'.ilen = s.ilen → s'.iovf = s.iovf → (∀ i, i < s.ilen.toNat → s'.ibuf.read i = s.ibuf.read i) →
    completeWith p s = .next t → completeWith p s' = .next t' →
    t'.result = t.result ∧ t'.cmd = t.cmd ∧ t'.status = t.status ∧ t'.pcount = t.pcount ∧
      t'.message = t.message ∧ t.ilen = 0 ∧ t.iovf = false

/-- R38: a second DECODE with no PUSH in between decodes an empty buffer and reports FRAME_TOO_SHORT. -/
def Obligations.DecodeConsumesItsInput : Prop :=
  ∀ (p : Params) (s t : State), completeWith p s = .next t →
    ∃ u, completeWith p { t with busy := true } = .next u ∧ u.result = 2 ∧ u.message = none

/-- From R93: with CHECKSUM_ENABLE false the values of the last two bytes never matter: any two others give the same
result, and no result is CHECKSUM_ERROR. That check 4 still counts the two bytes is not stated here but in
`ParserReportsTheFirstFailure`, `PaddedOrTruncatedFramesFail` and `OnlyFramesDecode`. -/
def Obligations.DisabledChecksumIgnoresTheTrailer : Prop :=
  ∀ (p : Params) (v : List Byte) (x y x' y' : Byte), p.checksumEnable = false →
    decodeFn p (v ++ [x, y]) = decodeFn p (v ++ [x', y']) ∧
    decodeFn p (v ++ [x, y]) ≠ .ok (.fail .checksumError)

/-- R82: with CHECKSUM_ENABLE true, a frame whose last two bytes are not the little-endian checksum16 of the bytes
before them gives CHECKSUM_ERROR. -/
def Obligations.WrongChecksumIsReported : Prop :=
  ∀ (p : Params) (c : Byte) (st k : Half) (params : List Byte), p.checksumEnable = true →
    params.length ≤ 65533 → k ≠ p.checksum16 (frameBody c st params) →
    decodeFn p (frameBytes c st params k) = .ok (.fail .checksumError)

/-- 95_test_vectors.md S8 as 90_conflicts.md C2 corrects it: padding a frame by one byte gives LENGTH_MISMATCH;
truncating it by one gives LENGTH_MISMATCH when it has parameters and FRAME_TOO_SHORT when it has none. -/
def Obligations.PaddedOrTruncatedFramesFail : Prop :=
  ∀ (p : Params) (c x : Byte) (st k : Half) (params : List Byte), params.length ≤ 65533 →
    decodeFn p (frameBytes c st params k ++ [x]) = .ok (.fail .lengthMismatch) ∧
    (params ≠ [] → decodeFn p (frameBytes c st params k).dropLast = .ok (.fail .lengthMismatch)) ∧
    (params = [] → decodeFn p (frameBytes c st params k).dropLast = .ok (.fail .frameTooShort))

/-- R95: decoding the frame built from a message gives the message back, under either setting of the checksum
and for every checksum algorithm; no buffer decodes to more than 65533 parameter bytes. -/
def Obligations.FrameRoundTrip : Prop :=
  (∀ (p : Params) (c : Byte) (st : Half) (params : List Byte), params.length ≤ 65533 →
    decodeFn p (frameBytesC p c st params) = .ok (.ok c st params)) ∧
  (∀ (p : Params) (v : List Byte) (c : Byte) (st : Half) (params : List Byte),
    decodeFn p v = .ok (.ok c st params) → params.length ≤ 65533)

/-- R52 with R45: a buffer decodes to a message exactly when it is a frame laid out as R45 says, with at most
65533 parameters and, if the checksum is enforced, the right checksum. -/
def Obligations.OnlyFramesDecode : Prop :=
  ∀ (p : Params) (v : List Byte) (c : Byte) (st : Half) (params : List Byte),
    decodeFn p v = .ok (.ok c st params) ↔
      params.length ≤ 65533 ∧ ∃ k : Half,
        v = [0xAA, 0xAA, 0xAA, c,
              BitVec.ofNat 8 (params.length + 2), BitVec.ofNat 8 ((params.length + 2) / 256),
              st.extractLsb' 0 8, st.extractLsb' 8 8]
            ++ params ++ [k.extractLsb' 0 8, k.extractLsb' 8 8] ∧
        (p.checksumEnable = true → k = p.checksum16 (v.take (params.length + 8)))

/-- 95_test_vectors.md S9 with R94: under SINGLE_BIT_DETECT and an enforced checksum, flipping any one bit of a
valid frame's payload gives CHECKSUM_ERROR; a flip in the Command ID byte does so under SINGLE_BIT_DETECT_ALL. -/
def Obligations.BitFlipsAreDetected : Prop :=
  ∀ (p : Params) (c : Byte) (st : Half) (params : List Byte) (i j : Nat),
    p.checksumEnable = true → params.length ≤ 65533 → j < 8 →
    (SingleBitDetect p.checksum16 → 6 ≤ i → i < params.length + 8 →
      decodeFn p (flipBit (frameBytesC p c st params) i j) = .ok (.fail .checksumError)) ∧
    (SingleBitDetectAll p.checksum16 → i = 3 →
      decodeFn p (flipBit (frameBytesC p c st params) i j) = .ok (.fail .checksumError))

/-- R62: the pseudo-instructions FRAME and FRAMEC push the bytes of a frame, which decodes to the message whenever
its checksum is right or not enforced. -/
def Obligations.FramePseudoInstructionsPushAFrame : Prop :=
  ∀ (p : Params) (c st k : Nat) (params : List Nat),
    ((AsmLine.frame c st params k).wellFormed = true →
      ∃ bytes, lineEvents p (.frame c st params k) = pushAll bytes ∧ bytes.length = params.length + 10 ∧
        (p.checksumEnable = false ∨ BitVec.ofNat 16 k = p.checksum16 (bytes.take (params.length + 8)) →
          decodeFn p bytes = .ok (.ok (BitVec.ofNat 8 c) (BitVec.ofNat 16 st) (params.map (BitVec.ofNat 8))))) ∧
    ((AsmLine.framec c st params).wellFormed = true →
      ∃ bytes, lineEvents p (.framec c st params) = pushAll bytes ∧ bytes.length = params.length + 10 ∧
        decodeFn p bytes = .ok (.ok (BitVec.ofNat 8 c) (BitVec.ofNat 16 st) (params.map (BitVec.ofNat 8))))

/-! ## The bounded buffer and the virtual buffer -/

/-- R67 as an invariant of every step: the input side is the bounded view of the virtual buffer of R66. -/
def Obligations.StepKeepsTheViewOfTheVirtualBuffer : Prop :=
  ∀ (v : List Byte) (s t : State), s.ibuf.wf → ViewOf v s → step s = .next t → ViewOf (virtualAfter v s) t

/-- R67: in every state reached from reset, whatever the host does, the input side is the bounded view of the bytes
pushed since the most recent reset, CLEAR or DECODE completion. -/
def Obligations.InputIsTheBoundedViewOfWhatWasPushed : Prop :=
  ∀ (es : List Event) (n : Nat) (t : State),
    let s := { State.reset with schedule := es }
    let v := virtualFor n [] s
    runFor n s = .next t →
      t.ilen.toNat = min v.length 65543 ∧ (∀ i, i < t.ilen.toNat → v[i]? = some (t.ibuf.read i)) ∧
      (t.iovf = true ↔ 65543 < v.length)

/-- R89: the bounded buffer is exact: the block's decode is the document's decode of the virtual buffer, however
long. -/
def Obligations.BoundedBufferIsExact : Prop :=
  ∀ (p : Params) (v : List Byte) (s : State), ViewOf v s → decodeHW p s = decodeFn p v

/-- R71, R89: from an empty input, pushing any bytes and then DECODE shows the document's `decode` of those bytes
on the ports when BUSY has fallen, whatever the earlier result and however many bytes. -/
def Obligations.PushedBufferDecodesAsTheDocumentSays : Prop :=
  ∀ (v : List Byte) (s : State) (es : List Event), s.InputEmpty → s.StoresCanonical →
    ∃ r t, decodeFn Params.device v = .ok r ∧
      runFor (v.length + 2)
        { s with schedule := pushAll v ++ offer .decode :: .wait :: es } = .next t ∧
      ShowsResult t r ∧ t.InputEmpty ∧ t.schedule = .wait :: es ∧ t.received = s.received

/-! ## Whole-machine rules -/

/-- R27, R28, R121: the reset state: every counter, flag and port 0, and it is legal and canonical. -/
def Obligations.ResetStateIsLegal : Prop :=
  State.reset.ilen = 0 ∧ State.reset.iovf = false ∧ State.reset.busy = false ∧ State.reset.result = 0 ∧
  State.reset.cmd = 0 ∧ State.reset.status = 0 ∧ State.reset.pcount = 0 ∧ State.reset.msgValid = false ∧
  State.reset.Legal ∧ State.reset.StoresCanonical

/-- R25 as an invariant of every step, from every state that satisfies it. -/
def Obligations.StepKeepsStateLegal : Prop :=
  ∀ s t : State, s.Legal → step s = .next t → t.Legal

/-- The model's canonical form of both byte stores (notes/assumptions/4.md) and their bounds (R30): every step
keeps them. -/
def Obligations.StepKeepsStoresCanonical : Prop :=
  ∀ s t : State, s.StoresCanonical → step s = .next t → t.StoresCanonical

/-- R25: every state reached from reset, whatever the host does and in whatever order, satisfies the five
clauses. -/
def Obligations.ReachableStatesAreLegal : Prop :=
  ∀ (es : List Event) (n : Nat) (t : State),
    runFor n { State.reset with schedule := es } = .next t →
    t.ilen.toNat ≤ 65543 ∧ (t.iovf = true → t.ilen.toNat = 65543) ∧ t.pcount.toNat ≤ 65533 ∧
      t.result ≠ 7 ∧ (t.result ≠ 1 → t.cmd = 0 ∧ t.status = 0 ∧ t.pcount = 0)

/-- R29: hidden bytes (IBUF at or above ILEN, PBUF at or above PCOUNT) are never seen: states that differ only
there step to the same outcome up to hidden bytes, and show the same observation of R133. -/
def Obligations.HiddenBytesAreNeverSeen : Prop :=
  ∀ s s' : State, s.StoresCanonical → s'.StoresCanonical → SameButHidden s s' →
    SameOutcome (step s) (step s') ∧ s'.observe = s.observe

/-- R74 and R128: the ports CMD, STATUS, PCOUNT, RESULT and the bytes of PBUF change only at a DECODE completion
(BUSY falls from 1 to 0) or at reset. -/
def Obligations.ResultChangesOnlyAtCompletionOrReset : Prop :=
  ∀ s t : State, step s = .next t → ¬ SameResult s t →
    (s.busy = true ∧ t.busy = false ∧ completeDecode s = .next t) ∨ ∃ es, s.schedule = .reset :: es

/-- R15: a byte of IBUF changes only where an accepted PUSH stores: at index ILEN, the byte of the command word. -/
def Obligations.OnlyPushWritesTheInputBuffer : Prop :=
  ∀ (s t : State) (a : Nat), s.ibuf.wf → step s = .next t → t.ibuf.read a ≠ s.ibuf.read a →
    s.busy = false ∧ a = s.ilen.toNat ∧ a < 65543 ∧
    ∃ w es, s.schedule = .request (.command w) :: es ∧ w &&& 0xFF00 = 0x0100 ∧
      t.ibuf.read a = w.setWidth 8

/-- R18: BUSY rises only at a DECODE acceptance, and falls only at a DECODE completion or at reset. -/
def Obligations.BusyRisesAndFallsAsDecodeRuns : Prop :=
  ∀ s t : State, step s = .next t →
    (s.busy = false → t.busy = true →
      ∃ w es, s.schedule = .request (.command w) :: es ∧ w &&& 0xFF00 = 0x0200) ∧
    (s.busy = true → t.busy = false →
      completeDecode s = .next t ∨ ∃ es, s.schedule = .reset :: es)

/-- R121 and R122: reset in any state, a DECODE in flight included, takes every port to its reset value in one
transition; the DECODE in flight writes nothing. That the bytes of the stores stay is the model's choice
(notes/assumptions/5.md) and is not stated; that reset leaves what the host has read and has still to do is the
model's choice too (notes/assumptions/1.md, notes/assumptions/12.md). -/
def Obligations.ResetClearsEveryPort : Prop :=
  ∀ (s : State) (es : List Event), s.schedule = .reset :: es →
    ∃ t, step s = .next t ∧ t.ilen = 0 ∧ t.iovf = false ∧ t.busy = false ∧ t.result = 0 ∧ t.cmd = 0 ∧
      t.status = 0 ∧ t.pcount = 0 ∧ t.msgValid = false ∧ (∀ i, t.paramByte i = 0) ∧
      t.schedule = es ∧ t.received = s.received

/-- A step runs the decoded instruction: the request at the head of the host's schedule, if it decodes to `i` and
BUSY does not hold it, is taken from the schedule and `i` is executed. The schedule is the model's own
(notes/assumptions/1.md). -/
def Obligations.StepRunsTheOfferedInstruction : Prop :=
  ∀ (s : State) (r : Request) (i : Instr) (es : List Event), s.schedule = .request r :: es →
    decodeRequest r = .ok i → i.wellFormed = true → (s.busy = false ∨ ∃ k, r = .readIndex k) →
    step s = exec i { s with schedule := es }

/-- R57: a reserved command word that comes to acceptance is refused by name. -/
def Obligations.ReservedCommandWordIsRefused : Prop :=
  ∀ (s : State) (w : Half) (es : List Event), s.busy = false → s.schedule = .request (.command w) :: es →
    w &&& 0xFF00 ≠ 0x0100 → w &&& 0xFF00 ≠ 0x0200 → w &&& 0xFF00 ≠ 0x0300 →
    step s = .refused (.reservedCommand w)

/-- R97 and R38: a port read gives the port's current value, BUSY or not, and changes nothing of the block. That the
value stands at the head of `received` is the model's choice (notes/assumptions/12.md). -/
def Obligations.PortReadHasNoSideEffect : Prop :=
  ∀ (s : State) (q : Port) (es : List Event), s.schedule = .readPort q :: es →
    ∃ t, step s = .next t ∧ t.schedule = es ∧ t.busy = s.busy ∧ SameInput s t ∧ SameResult s t ∧
      t.received = (match q with
        | .busy => HostRead.busy s.busy | .result => .result s.result
        | .msgValid => .msgValid (decide (s.result = 1)) | .cmd => .cmd s.cmd | .status => .status s.status
        | .pcount => .pcount s.pcount | .ilen => .ilen s.ilen | .iovf => .iovf s.iovf) :: s.received

/-- R120, R133: with nothing offered and BUSY 0 all state persists. -/
def Obligations.EndedRunPersists : Prop :=
  ∀ (s : State) (n : Nat), s.RunEnded → runFor n s = .next s

/-- R61: WAIT is over only when BUSY reads 0; until then the decoder agent completes. The schedule is the model's
own (notes/assumptions/3.md). -/
def Obligations.WaitEndsWhenBusyIsZero : Prop :=
  ∀ (s : State) (es : List Event), s.schedule = .wait :: es →
    (s.busy = false → step s = .next { s with schedule := es }) ∧
    (s.busy = true → ∃ t, step s = .next t ∧ completeDecode s = .next t ∧ t.busy = false ∧
      t.schedule = s.schedule)

/-- With R52 and R57: while the host keeps its duty, no step stops: every step answers a next state, and the duty
is kept by what is left. -/
def Obligations.DutifulHostNeverStopsTheMachine : Prop :=
  ∀ (s : State) (n : Nat), s.HostDutiful →
    ∃ t, runFor n s = .next t ∧ t.HostDutiful

/-- R123: an accepted DECODE completes after finitely many steps, or reset intervenes: BUSY falls within one step
more than the host has events left. That nothing else can delay it is the model's form of weak fairness
(notes/assumptions/3.md). -/
def Obligations.AcceptedDecodeCompletes : Prop :=
  ∀ s : State, s.busy = true →
    ∃ n t, n ≤ s.schedule.length + 1 ∧ runFor n s = .next t ∧ t.busy = false

/-! ## Vocabularies -/

/-- R98 and R99: the two fixed entries of KNOWN_STATUS, and the classification of every raw value: known by its
name, or kept raw. -/
def Obligations.StatusClassification : Prop :=
  statusClass 0 = .known .success ∧ statusClass 14 = .known .cmdUnknown ∧
  ∀ raw : Half,
    (∃ n, Config.knownStatus raw = some n ∧ statusClass raw = .known n) ∨
    (Config.knownStatus raw = none ∧ statusClass raw = .unknown raw)

/-- R103 and R104: a StateFlag word is read little-endian from parameter bytes k to k + 3, only when
k + 4 <= PCOUNT, and no bit of it is masked. -/
def Obligations.StateFlagWordIsLittleEndian : Prop :=
  ∀ (s : State) (k : Nat), s.pcount.toNat ≤ 65533 →
    (s.stateFlagWord k =
      if k + 4 ≤ s.pcount.toNat then
        some (s.pbuf.read (k + 3) ++ s.pbuf.read (k + 2) ++ s.pbuf.read (k + 1) ++ s.pbuf.read k)
      else none)
end

