-- ==== Sys2Proof/Laws/Encoding.lean ====
section
/-! SUPPORT. The fields of a command word (R55): what the opcode and data fields are, and the mask they answer to. -/

namespace Sys2Proof

@[simp] theorem opField_commandWord (op data : Byte) : opField (commandWord op data) = op := by
  apply BitVec.eq_of_getLsbD_eq
  intro i hi
  simp [opField, commandWord, hi, show 8 + i < 16 by omega]

@[simp] theorem dataField_commandWord (op data : Byte) : dataField (commandWord op data) = data := by
  apply BitVec.eq_of_getLsbD_eq
  intro i hi
  simp [dataField, commandWord, hi]
  omega

/-- No bit of a command word lies outside its two fields. -/
theorem commandWord_fields (w : Half) : commandWord (opField w) (dataField w) = w := by
  apply BitVec.eq_of_getLsbD_eq
  intro i hi
  simp [opField, dataField, commandWord, hi]
  by_cases h8 : i < 8
  · simp [h8]
  · simp [h8, hi, show i - 8 < 8 by omega, show 8 + (i - 8) = i by omega, BitVec.getLsbD_eq_getElem]

theorem dataField_eq_setWidth (w : Half) : dataField w = w.setWidth 8 := by
  simp [dataField, BitVec.setWidth_eq_extractLsb']

theorem opField_toNat (w : Half) : (opField w).toNat = w.toNat / 256 := by
  have := w.isLt
  simp [opField, Nat.shiftRight_eq_div_pow]
  omega

/-- The opcode field as mask 0xFF00 and match (R56). -/
theorem opField_eq_iff (w : Half) (op : Byte) : opField w = op ↔ w &&& 0xFF00 = commandWord op 0 := by
  have hm : ∀ i < 16, ((0xFF00 : Half).getLsbD i = decide (8 ≤ i)) := by decide
  constructor
  · intro h
    subst h
    apply BitVec.eq_of_getLsbD_eq
    intro i hi
    rw [BitVec.getLsbD_and, hm i hi]
    simp [commandWord, opField]
    by_cases h8 : i < 8
    · simp [h8, show ¬ 8 ≤ i by omega]
    · simp [h8, hi, show 8 ≤ i by omega, show i - 8 < 8 by omega, show 8 + (i - 8) = i by omega]
      omega
  · intro h
    apply BitVec.eq_of_getLsbD_eq
    intro i hi
    have h2 := congrArg (fun x => BitVec.getLsbD x (8 + i)) h
    simp only [BitVec.getLsbD_and, hm (8 + i) (by omega)] at h2
    simp [commandWord] at h2
    simpa [opField, hi, show 8 + i < 16 by omega, show i < 16 by omega,
      BitVec.getLsbD_eq_getElem (show 8 + i < 16 by omega), BitVec.getLsbD_eq_getElem hi] using h2

end Sys2Proof
end

