-- ==== Sys2Proof/Laws/Memory.lean ====
section
/-! SUPPORT. The laws of the byte stores: what a read gives after a write, and that every operation keeps the
canonical form and the store's bounds. -/

namespace Sys2Proof.Machine

@[simp] theorem Memory.read_nil (a : Nat) : Memory.read [] a = unlistedByte := rfl

/-- Reading where the first cell stands, and elsewhere. -/
theorem Memory.read_cell (k : Nat) (b : Byte) (m : Memory) (a : Nat) :
    Memory.read ((k, b) :: m) a = if a = k then b else Memory.read m a := rfl

/-- An index that no cell lists reads as `unlistedByte`. -/
theorem Memory.read_of_not_listed (m : Memory) (a : Nat) (h : ∀ c ∈ m, c.1 ≠ a) :
    Memory.read m a = unlistedByte := by
  induction m with
  | nil => rfl
  | cons c m ih =>
    obtain ⟨k, b⟩ := c
    have hk : a ≠ k := fun e => h (k, b) List.mem_cons_self e.symm
    rw [Memory.read_cell, if_neg hk]
    exact ih fun c hc => h c (List.mem_cons_of_mem _ hc)

/-- Reading after `Memory.cons`, where the index put in front is not listed behind. -/
theorem Memory.read_cons (m : Memory) (a : Nat) (b : Byte) (a' : Nat)
    (h : Memory.read m a = unlistedByte) :
    Memory.read (Memory.cons a b m) a' = if a' = a then b else Memory.read m a' := by
  unfold Memory.cons
  by_cases hb : b = unlistedByte
  · by_cases e : a' = a
    · simp [hb, e, h]
    · simp [hb, e]
  · simp [hb, Memory.read_cell]

/-- A read after a write, in a store in canonical form. -/
theorem Memory.read_write (m : Memory) (a : Nat) (b : Byte) (a' : Nat) (h : Memory.wf m) :
    Memory.read (Memory.write m a b) a' = if a' = a then b else Memory.read m a' := by
  induction m with
  | nil => exact Memory.read_cons [] a b a' rfl
  | cons c m ih =>
    obtain ⟨k, d⟩ := c
    obtain ⟨hp, hn⟩ := h
    rw [List.pairwise_cons] at hp
    have hm : Memory.wf m := ⟨hp.2, fun c hc => hn c (List.mem_cons_of_mem _ hc)⟩
    have above : ∀ x, x ≤ k → Memory.read m x = unlistedByte := fun x hx =>
      Memory.read_of_not_listed m x fun c hc e => by have := hp.1 c hc; simp at this; omega
    unfold Memory.write
    by_cases h1 : a < k
    · rw [if_pos h1]
      refine Memory.read_cons _ a b a' ?_
      rw [Memory.read_cell, if_neg (by omega)]
      exact above a (by omega)
    · rw [if_neg h1]
      by_cases h2 : a = k
      · rw [if_pos h2, Memory.read_cons m a b a' (above a (by omega)), Memory.read_cell]
        by_cases e : a' = a
        · simp [e]
        · rw [if_neg e, if_neg e, if_neg (by omega)]
      · rw [if_neg h2, Memory.read_cell, ih hm, Memory.read_cell]
        by_cases e : a' = k
        · rw [if_pos e, if_neg (by omega), if_pos e]
        · rw [if_neg e, if_neg e]

theorem Memory.mem_cons (a : Nat) (b : Byte) (m : Memory) (c : Host.Cell) (h : c ∈ Memory.cons a b m) :
    c ∈ m ∨ (c = (a, b) ∧ b ≠ unlistedByte) := by
  unfold Memory.cons at h
  split at h
  · exact .inl h
  · rcases List.mem_cons.mp h with rfl | h
    · exact .inr ⟨rfl, by assumption⟩
    · exact .inl h

/-- A cell of the store after a write stood there before, or is the written one. -/
theorem Memory.mem_write (m : Memory) (a : Nat) (b : Byte) (c : Host.Cell) (h : c ∈ Memory.write m a b) :
    c ∈ m ∨ (c = (a, b) ∧ b ≠ unlistedByte) := by
  induction m with
  | nil => exact Memory.mem_cons a b [] c h
  | cons d m ih =>
    obtain ⟨k, d⟩ := d
    unfold Memory.write at h
    split at h
    · exact Memory.mem_cons a b _ c h
    · split at h
      · rcases Memory.mem_cons a b m c h with h | h
        · exact .inl (List.mem_cons_of_mem _ h)
        · exact .inr h
      · rcases List.mem_cons.mp h with rfl | h
        · exact .inl List.mem_cons_self
        · rcases ih h with h | h
          · exact .inl (List.mem_cons_of_mem _ h)
          · exact .inr h

theorem Memory.cons_wf (a : Nat) (b : Byte) (m : Memory) (h : Memory.wf m) (ha : ∀ c ∈ m, a < c.1) :
    Memory.wf (Memory.cons a b m) := by
  refine ⟨?_, ?_⟩
  · unfold Memory.cons
    split
    · exact h.1
    · exact List.pairwise_cons.mpr ⟨ha, h.1⟩
  · intro c hc
    rcases Memory.mem_cons a b m c hc with hc | ⟨rfl, hb⟩
    · exact h.2 c hc
    · exact hb

/-- A write keeps the canonical form. -/
theorem Memory.write_wf (m : Memory) (a : Nat) (b : Byte) (h : Memory.wf m) :
    Memory.wf (Memory.write m a b) := by
  induction m with
  | nil => exact Memory.cons_wf a b [] h (by simp)
  | cons c m ih =>
    obtain ⟨k, d⟩ := c
    have hp := List.pairwise_cons.mp h.1
    have hm : Memory.wf m := ⟨hp.2, fun c hc => h.2 c (List.mem_cons_of_mem _ hc)⟩
    unfold Memory.write
    split
    · refine Memory.cons_wf a b _ h fun c hc => ?_
      rcases List.mem_cons.mp hc with rfl | hc
      · assumption
      · have := hp.1 c hc
        simp at this
        omega
    · split
      · refine Memory.cons_wf a b m hm fun c hc => ?_
        have := hp.1 c hc
        simp at this
        omega
      · refine ⟨List.pairwise_cons.mpr ⟨fun c hc => ?_, (ih hm).1⟩, fun c hc => ?_⟩
        · rcases Memory.mem_write m a b c hc with hc | ⟨rfl, _⟩
          · exact hp.1 c hc
          · simp; omega
        · rcases List.mem_cons.mp hc with rfl | hc
          · exact h.2 _ List.mem_cons_self
          · exact (ih hm).2 c hc

/-- A write below `cap` keeps the store's bounds. -/
theorem Memory.write_within (m : Memory) (a : Nat) (b : Byte) (cap : Nat) (h : Memory.within m cap)
    (ha : a < cap) : Memory.within (Memory.write m a b) cap := by
  intro c hc
  rcases Memory.mem_write m a b c hc with hc | ⟨rfl, _⟩
  · exact h c hc
  · exact ha

/-- Writing several bytes keeps the canonical form. -/
theorem Memory.writeList_wf (m : Memory) (a : Nat) (bs : List Byte) (h : Memory.wf m) :
    Memory.wf (Memory.writeList m a bs) := by
  induction bs generalizing m a with
  | nil => exact h
  | cons b bs ih => exact ih _ _ (Memory.write_wf m a b h)

/-- Writing several bytes below `cap` keeps the store's bounds. -/
theorem Memory.writeList_within (m : Memory) (a : Nat) (bs : List Byte) (cap : Nat) (h : Memory.within m cap)
    (ha : a + bs.length ≤ cap) : Memory.within (Memory.writeList m a bs) cap := by
  induction bs generalizing m a with
  | nil => exact h
  | cons b bs ih =>
    rw [List.length_cons] at ha
    exact ih _ _ (Memory.write_within m a b cap h (by omega)) (by omega)

/-- A read after writing several bytes: the written byte inside them, the old one elsewhere. -/
theorem Memory.read_writeList (m : Memory) (a : Nat) (bs : List Byte) (a' : Nat) (h : Memory.wf m) :
    Memory.read (Memory.writeList m a bs) a' =
      if a ≤ a' then (bs[a' - a]?).getD (Memory.read m a') else Memory.read m a' := by
  induction bs generalizing m a with
  | nil => simp [Memory.writeList]
  | cons b bs ih =>
    rw [Memory.writeList, ih _ _ (Memory.write_wf m a b h), Memory.read_write m a b a' h]
    by_cases h1 : a + 1 ≤ a'
    · obtain ⟨d, rfl⟩ : ∃ d, a' = a + 1 + d := ⟨a' - (a + 1), by omega⟩
      have e1 : a + 1 + d - (a + 1) = d := by omega
      have e2 : a + 1 + d - a = d + 1 := by omega
      rw [if_pos h1, if_neg (by omega), if_pos (by omega), e1, e2, List.getElem?_cons_succ]
    · rw [if_neg h1]
      by_cases e : a' = a
      · subst e
        simp
      · rw [if_neg e, if_neg (by omega)]

end Sys2Proof.Machine
end

