-- ==== Sys2Proof/Laws/State.lean ====
section
/-! SUPPORT. One lemma per field per update of State: no later proof unfolds a record update. -/

namespace Sys2Proof.Machine

/-! `State.storeInput` (R63) -/

@[simp] theorem State.storeInput_ibuf (s : State) (b : Byte) :
    (s.storeInput b).ibuf = s.ibuf.write s.ilen.toNat b := rfl
@[simp] theorem State.storeInput_ilen (s : State) (b : Byte) :
    (s.storeInput b).ilen = s.ilen + 1 := rfl
@[simp] theorem State.storeInput_iovf (s : State) (b : Byte) : (s.storeInput b).iovf = s.iovf := rfl
@[simp] theorem State.storeInput_busy (s : State) (b : Byte) : (s.storeInput b).busy = s.busy := rfl
@[simp] theorem State.storeInput_result (s : State) (b : Byte) :
    (s.storeInput b).result = s.result := rfl
@[simp] theorem State.storeInput_cmd (s : State) (b : Byte) : (s.storeInput b).cmd = s.cmd := rfl
@[simp] theorem State.storeInput_status (s : State) (b : Byte) :
    (s.storeInput b).status = s.status := rfl
@[simp] theorem State.storeInput_pcount (s : State) (b : Byte) :
    (s.storeInput b).pcount = s.pcount := rfl
@[simp] theorem State.storeInput_pbuf (s : State) (b : Byte) : (s.storeInput b).pbuf = s.pbuf := rfl
@[simp] theorem State.storeInput_schedule (s : State) (b : Byte) :
    (s.storeInput b).schedule = s.schedule := rfl
@[simp] theorem State.storeInput_received (s : State) (b : Byte) :
    (s.storeInput b).received = s.received := rfl

/-! `State.setOverflow` (R64) -/

@[simp] theorem State.setOverflow_ibuf (s : State) : s.setOverflow.ibuf = s.ibuf := rfl
@[simp] theorem State.setOverflow_ilen (s : State) : s.setOverflow.ilen = s.ilen := rfl
@[simp] theorem State.setOverflow_iovf (s : State) : s.setOverflow.iovf = true := rfl
@[simp] theorem State.setOverflow_busy (s : State) : s.setOverflow.busy = s.busy := rfl
@[simp] theorem State.setOverflow_result (s : State) : s.setOverflow.result = s.result := rfl
@[simp] theorem State.setOverflow_cmd (s : State) : s.setOverflow.cmd = s.cmd := rfl
@[simp] theorem State.setOverflow_status (s : State) : s.setOverflow.status = s.status := rfl
@[simp] theorem State.setOverflow_pcount (s : State) : s.setOverflow.pcount = s.pcount := rfl
@[simp] theorem State.setOverflow_pbuf (s : State) : s.setOverflow.pbuf = s.pbuf := rfl
@[simp] theorem State.setOverflow_schedule (s : State) : s.setOverflow.schedule = s.schedule := rfl
@[simp] theorem State.setOverflow_received (s : State) : s.setOverflow.received = s.received := rfl

/-! `State.emptyInput` (R69, R88) -/

@[simp] theorem State.emptyInput_ibuf (s : State) : s.emptyInput.ibuf = s.ibuf := rfl
@[simp] theorem State.emptyInput_ilen (s : State) : s.emptyInput.ilen = 0 := rfl
@[simp] theorem State.emptyInput_iovf (s : State) : s.emptyInput.iovf = false := rfl
@[simp] theorem State.emptyInput_busy (s : State) : s.emptyInput.busy = s.busy := rfl
@[simp] theorem State.emptyInput_result (s : State) : s.emptyInput.result = s.result := rfl
@[simp] theorem State.emptyInput_cmd (s : State) : s.emptyInput.cmd = s.cmd := rfl
@[simp] theorem State.emptyInput_status (s : State) : s.emptyInput.status = s.status := rfl
@[simp] theorem State.emptyInput_pcount (s : State) : s.emptyInput.pcount = s.pcount := rfl
@[simp] theorem State.emptyInput_pbuf (s : State) : s.emptyInput.pbuf = s.pbuf := rfl
@[simp] theorem State.emptyInput_schedule (s : State) : s.emptyInput.schedule = s.schedule := rfl
@[simp] theorem State.emptyInput_received (s : State) : s.emptyInput.received = s.received := rfl

/-! `State.raiseBusy` (R75) -/

@[simp] theorem State.raiseBusy_ibuf (s : State) : s.raiseBusy.ibuf = s.ibuf := rfl
@[simp] theorem State.raiseBusy_ilen (s : State) : s.raiseBusy.ilen = s.ilen := rfl
@[simp] theorem State.raiseBusy_iovf (s : State) : s.raiseBusy.iovf = s.iovf := rfl
@[simp] theorem State.raiseBusy_busy (s : State) : s.raiseBusy.busy = true := rfl
@[simp] theorem State.raiseBusy_result (s : State) : s.raiseBusy.result = s.result := rfl
@[simp] theorem State.raiseBusy_cmd (s : State) : s.raiseBusy.cmd = s.cmd := rfl
@[simp] theorem State.raiseBusy_status (s : State) : s.raiseBusy.status = s.status := rfl
@[simp] theorem State.raiseBusy_pcount (s : State) : s.raiseBusy.pcount = s.pcount := rfl
@[simp] theorem State.raiseBusy_pbuf (s : State) : s.raiseBusy.pbuf = s.pbuf := rfl
@[simp] theorem State.raiseBusy_schedule (s : State) : s.raiseBusy.schedule = s.schedule := rfl
@[simp] theorem State.raiseBusy_received (s : State) : s.raiseBusy.received = s.received := rfl

/-! `State.lowerBusy` (R76) -/

@[simp] theorem State.lowerBusy_ibuf (s : State) : s.lowerBusy.ibuf = s.ibuf := rfl
@[simp] theorem State.lowerBusy_ilen (s : State) : s.lowerBusy.ilen = s.ilen := rfl
@[simp] theorem State.lowerBusy_iovf (s : State) : s.lowerBusy.iovf = s.iovf := rfl
@[simp] theorem State.lowerBusy_busy (s : State) : s.lowerBusy.busy = false := rfl
@[simp] theorem State.lowerBusy_result (s : State) : s.lowerBusy.result = s.result := rfl
@[simp] theorem State.lowerBusy_cmd (s : State) : s.lowerBusy.cmd = s.cmd := rfl
@[simp] theorem State.lowerBusy_status (s : State) : s.lowerBusy.status = s.status := rfl
@[simp] theorem State.lowerBusy_pcount (s : State) : s.lowerBusy.pcount = s.pcount := rfl
@[simp] theorem State.lowerBusy_pbuf (s : State) : s.lowerBusy.pbuf = s.pbuf := rfl
@[simp] theorem State.lowerBusy_schedule (s : State) : s.lowerBusy.schedule = s.schedule := rfl
@[simp] theorem State.lowerBusy_received (s : State) : s.lowerBusy.received = s.received := rfl

/-! `State.writeFailure` (R86) -/

@[simp] theorem State.writeFailure_ibuf (s : State) (o : Failure) :
    (s.writeFailure o).ibuf = s.ibuf := rfl
@[simp] theorem State.writeFailure_ilen (s : State) (o : Failure) :
    (s.writeFailure o).ilen = s.ilen := rfl
@[simp] theorem State.writeFailure_iovf (s : State) (o : Failure) :
    (s.writeFailure o).iovf = s.iovf := rfl
@[simp] theorem State.writeFailure_busy (s : State) (o : Failure) :
    (s.writeFailure o).busy = s.busy := rfl
@[simp] theorem State.writeFailure_result (s : State) (o : Failure) :
    (s.writeFailure o).result = o.code := rfl
@[simp] theorem State.writeFailure_cmd (s : State) (o : Failure) : (s.writeFailure o).cmd = 0 := rfl
@[simp] theorem State.writeFailure_status (s : State) (o : Failure) :
    (s.writeFailure o).status = 0 := rfl
@[simp] theorem State.writeFailure_pcount (s : State) (o : Failure) :
    (s.writeFailure o).pcount = 0 := rfl
@[simp] theorem State.writeFailure_pbuf (s : State) (o : Failure) :
    (s.writeFailure o).pbuf = s.pbuf := rfl
@[simp] theorem State.writeFailure_schedule (s : State) (o : Failure) :
    (s.writeFailure o).schedule = s.schedule := rfl
@[simp] theorem State.writeFailure_received (s : State) (o : Failure) :
    (s.writeFailure o).received = s.received := rfl

/-! `State.writeMessage` (R87) -/

@[simp] theorem State.writeMessage_ibuf (s : State) (c : Byte) (st : Half) (params : List Byte) :
    (s.writeMessage c st params).ibuf = s.ibuf := rfl
@[simp] theorem State.writeMessage_ilen (s : State) (c : Byte) (st : Half) (params : List Byte) :
    (s.writeMessage c st params).ilen = s.ilen := rfl
@[simp] theorem State.writeMessage_iovf (s : State) (c : Byte) (st : Half) (params : List Byte) :
    (s.writeMessage c st params).iovf = s.iovf := rfl
@[simp] theorem State.writeMessage_busy (s : State) (c : Byte) (st : Half) (params : List Byte) :
    (s.writeMessage c st params).busy = s.busy := rfl
@[simp] theorem State.writeMessage_result (s : State) (c : Byte) (st : Half) (params : List Byte) :
    (s.writeMessage c st params).result = resultOk := rfl
@[simp] theorem State.writeMessage_cmd (s : State) (c : Byte) (st : Half) (params : List Byte) :
    (s.writeMessage c st params).cmd = c := rfl
@[simp] theorem State.writeMessage_status (s : State) (c : Byte) (st : Half) (params : List Byte) :
    (s.writeMessage c st params).status = st := rfl
@[simp] theorem State.writeMessage_pcount (s : State) (c : Byte) (st : Half) (params : List Byte) :
    (s.writeMessage c st params).pcount = BitVec.ofNat 16 params.length := rfl
@[simp] theorem State.writeMessage_pbuf (s : State) (c : Byte) (st : Half) (params : List Byte) :
    (s.writeMessage c st params).pbuf = s.pbuf.writeList 0 params := rfl
@[simp] theorem State.writeMessage_schedule (s : State) (c : Byte) (st : Half) (params : List Byte) :
    (s.writeMessage c st params).schedule = s.schedule := rfl
@[simp] theorem State.writeMessage_received (s : State) (c : Byte) (st : Half) (params : List Byte) :
    (s.writeMessage c st params).received = s.received := rfl

/-! `State.takeEvent` (an event has taken effect) -/

@[simp] theorem State.takeEvent_ibuf (s : State) : s.takeEvent.ibuf = s.ibuf := rfl
@[simp] theorem State.takeEvent_ilen (s : State) : s.takeEvent.ilen = s.ilen := rfl
@[simp] theorem State.takeEvent_iovf (s : State) : s.takeEvent.iovf = s.iovf := rfl
@[simp] theorem State.takeEvent_busy (s : State) : s.takeEvent.busy = s.busy := rfl
@[simp] theorem State.takeEvent_result (s : State) : s.takeEvent.result = s.result := rfl
@[simp] theorem State.takeEvent_cmd (s : State) : s.takeEvent.cmd = s.cmd := rfl
@[simp] theorem State.takeEvent_status (s : State) : s.takeEvent.status = s.status := rfl
@[simp] theorem State.takeEvent_pcount (s : State) : s.takeEvent.pcount = s.pcount := rfl
@[simp] theorem State.takeEvent_pbuf (s : State) : s.takeEvent.pbuf = s.pbuf := rfl
@[simp] theorem State.takeEvent_schedule (s : State) : s.takeEvent.schedule = s.schedule.tail := rfl
@[simp] theorem State.takeEvent_received (s : State) : s.takeEvent.received = s.received := rfl

/-! `State.recordRead` (R96, R97) -/

@[simp] theorem State.recordRead_ibuf (s : State) (v : HostRead) :
    (s.recordRead v).ibuf = s.ibuf := rfl
@[simp] theorem State.recordRead_ilen (s : State) (v : HostRead) :
    (s.recordRead v).ilen = s.ilen := rfl
@[simp] theorem State.recordRead_iovf (s : State) (v : HostRead) :
    (s.recordRead v).iovf = s.iovf := rfl
@[simp] theorem State.recordRead_busy (s : State) (v : HostRead) :
    (s.recordRead v).busy = s.busy := rfl
@[simp] theorem State.recordRead_result (s : State) (v : HostRead) :
    (s.recordRead v).result = s.result := rfl
@[simp] theorem State.recordRead_cmd (s : State) (v : HostRead) :
    (s.recordRead v).cmd = s.cmd := rfl
@[simp] theorem State.recordRead_status (s : State) (v : HostRead) :
    (s.recordRead v).status = s.status := rfl
@[simp] theorem State.recordRead_pcount (s : State) (v : HostRead) :
    (s.recordRead v).pcount = s.pcount := rfl
@[simp] theorem State.recordRead_pbuf (s : State) (v : HostRead) :
    (s.recordRead v).pbuf = s.pbuf := rfl
@[simp] theorem State.recordRead_schedule (s : State) (v : HostRead) :
    (s.recordRead v).schedule = s.schedule := rfl
@[simp] theorem State.recordRead_received (s : State) (v : HostRead) :
    (s.recordRead v).received = v :: s.received := rfl

/-! `State.resetInput` (R121) -/

@[simp] theorem State.resetInput_ibuf (s : State) : s.resetInput.ibuf = s.ibuf := rfl
@[simp] theorem State.resetInput_ilen (s : State) : s.resetInput.ilen = 0 := rfl
@[simp] theorem State.resetInput_iovf (s : State) : s.resetInput.iovf = false := rfl
@[simp] theorem State.resetInput_busy (s : State) : s.resetInput.busy = false := rfl
@[simp] theorem State.resetInput_result (s : State) : s.resetInput.result = resultNone := rfl
@[simp] theorem State.resetInput_cmd (s : State) : s.resetInput.cmd = 0 := rfl
@[simp] theorem State.resetInput_status (s : State) : s.resetInput.status = 0 := rfl
@[simp] theorem State.resetInput_pcount (s : State) : s.resetInput.pcount = 0 := rfl
@[simp] theorem State.resetInput_pbuf (s : State) : s.resetInput.pbuf = s.pbuf := rfl
@[simp] theorem State.resetInput_schedule (s : State) : s.resetInput.schedule = s.schedule := rfl
@[simp] theorem State.resetInput_received (s : State) : s.resetInput.received = s.received := rfl

end Sys2Proof.Machine
end

