-- ==== Sys2Proof/Laws/Ops.lean ====
section
/-! SUPPORT. For each shared operation, once, all it can do. -/

namespace Sys2Proof.Machine

/-! ### Acceptance and the BUSY hold -/

theorem whenReady_of_busy (s accepted : State) (h : s.busy = true) : whenReady s accepted = .next s := by
  simp [whenReady, h]

theorem whenReady_of_ready (s accepted : State) (h : s.busy = false) :
    whenReady s accepted = .next accepted := by
  simp [whenReady, h]

/-- Offered a command, the machine stays where it is while BUSY is 1, or goes to the accepted state. -/
theorem whenReady_cases (s accepted t : State) (h : whenReady s accepted = .next t) :
    (s.busy = true ∧ t = s) ∨ (s.busy = false ∧ t = accepted) := by
  cases hb : s.busy
  · rw [whenReady_of_ready _ _ hb] at h
    exact .inr ⟨rfl, by cases h; rfl⟩
  · rw [whenReady_of_busy _ _ hb] at h
    exact .inl ⟨rfl, by cases h; rfl⟩

theorem pushByte_of_lt (s : State) (b : Byte) (h : s.ilen.toNat < ibufCap) : s.pushByte b = s.storeInput b :=
  if_pos h

theorem pushByte_of_full (s : State) (b : Byte) (h : ibufCap ≤ s.ilen.toNat) : s.pushByte b = s.setOverflow :=
  if_neg (Nat.not_lt.mpr h)

/-- The 17-bit counter does not wrap when a byte is stored (R16). -/
theorem storeInput_ilen_toNat (s : State) (b : Byte) (h : s.ilen.toNat < ibufCap) :
    (s.storeInput b).ilen.toNat = s.ilen.toNat + 1 := by
  have h' : s.ilen.toNat < 65543 := h
  have h1 : (1 : Len).toNat = 1 := rfl
  rw [State.storeInput_ilen, BitVec.toNat_add, h1]
  omega

/-! ### Reads -/

theorem inputByte_of_lt (s : State) (i : Nat) (h : i < s.ilen.toNat) : s.inputByte i = .ok (s.ibuf.read i) :=
  if_pos h

theorem seqByte_of_getElem? (bytes : List Byte) (i : Nat) (b : Byte) (h : bytes[i]? = some b) :
    seqByte bytes i = .ok b := by
  simp [seqByte, h]

/-- A range read whose every byte can be read gives those bytes in order. -/
theorem readRange_ok (read : Nat → Except Fault Byte) (f : Nat → Byte) (n a : Nat)
    (h : ∀ i, a ≤ i → i < a + n → read i = .ok (f i)) :
    readRange read a n = .ok ((List.range n).map fun k => f (a + k)) := by
  induction n generalizing a with
  | zero => rfl
  | succ n ih =>
    have h0 := h a (Nat.le_refl a) (by omega)
    have hn := ih (a + 1) fun i h1 h2 => h i (by omega) (by omega)
    have hf : ((List.range n).map fun k => f (a + 1 + k)) = (List.range n).map ((fun k => f (a + k)) ∘ Nat.succ) :=
      List.map_congr_left fun k _ => by simp only [Function.comp, Nat.succ_eq_add_one]; congr 1; omega
    rw [List.range_succ_eq_map, List.map_cons, List.map_map, ← hf]
    simp only [readRange, h0, hn]
    rfl

/-- A range read depends only on the bytes of the range. -/
theorem readRange_congr (read read' : Nat → Except Fault Byte) (n a : Nat)
    (h : ∀ i, a ≤ i → i < a + n → read i = read' i) : readRange read a n = readRange read' a n := by
  induction n generalizing a with
  | zero => rfl
  | succ n ih =>
    rw [readRange, readRange, h a (Nat.le_refl a) (by omega), ih (a + 1) fun i h1 h2 => h i (by omega) (by omega)]

/-- A 2-byte `MemRead`: the byte at the lower offset is the low one (R32). -/
theorem memRead_two (read : Nat → Except Fault Byte) (a : Nat) (lo hi : Byte) (h0 : read a = .ok lo)
    (h1 : read (a + 1) = .ok hi) : memRead read a 2 = .ok (lo.toNat + 256 * hi.toNat) := by
  simp only [memRead, readRange, h0, h1]
  rfl

/-! ### The parser's parts, over a source whose bytes can be read -/

theorem preambleOk_ok (read : Nat → Except Fault Byte) (f : Nat → Byte) (h : ∀ i, i < 3 → read i = .ok (f i)) :
    preambleOk read = .ok (f 0 == preambleByte && f 1 == preambleByte && f 2 == preambleByte) := by
  simp only [preambleOk, h 0 (by omega), h 1 (by omega), h 2 (by omega)]
  rfl

theorem checksumOk_disabled (p : Params) (read : Nat → Except Fault Byte) (pl : Nat)
    (hp : p.checksumEnable = false) : checksumOk p read pl = .ok true := by
  simp [checksumOk, hp]

theorem checksumOk_enabled (p : Params) (read : Nat → Except Fault Byte) (f : Nat → Byte) (pl : Nat)
    (hp : p.checksumEnable = true) (h : ∀ i, i < pl + 8 → read i = .ok (f i)) :
    checksumOk p read pl = .ok (BitVec.ofNat 16 ((f (pl + 6)).toNat + 256 * (f (pl + 7)).toNat) ==
      p.checksum16 ((List.range (pl + 6)).map f)) := by
  have hr : readRange read 0 (pl + 6) = .ok ((List.range (pl + 6)).map f) := by
    rw [readRange_ok read f (pl + 6) 0 fun i _ hi => h i (by omega)]
    simp
  have hm := memRead_two read (pl + 6) _ _ (h (pl + 6) (by omega)) (h (pl + 7) (by omega))
  rw [checksumOk, if_pos hp, offChecksum, hm, hr]
  rfl

theorem extract_ok (read : Nat → Except Fault Byte) (f : Nat → Byte) (pl : Nat) (hpl : 2 ≤ pl)
    (h : ∀ i, i < pl + 8 → read i = .ok (f i)) :
    extract read pl = .ok (.ok (f 3) (BitVec.ofNat 16 ((f 6).toNat + 256 * (f 7).toNat))
      ((List.range (pl - 2)).map fun k => f (8 + k))) := by
  have hr := readRange_ok read f (pl - 2) 8 fun i _ hi => h i (by omega)
  have hm := memRead_two read 6 _ _ (h 6 (by omega)) (h 7 (by omega))
  simp only [extract, offCmd, offStatus, offParams, minPlen, h 3 (by omega), hm, hr]
  rfl

/-- Two bytes of a 16-bit field, assembled little-endian: the higher offset holds bits 15 to 8 (R32). -/
theorem ofNat_two_bytes (lo hi : Byte) : BitVec.ofNat 16 (lo.toNat + 256 * hi.toNat) = (hi ++ lo : Half) := by
  apply BitVec.eq_of_toNat_eq
  have h1 := lo.isLt
  have h2 := hi.isLt
  have e : (hi ++ lo : Half).toNat = hi.toNat <<< 8 ||| lo.toNat := BitVec.toNat_append hi lo
  rw [e, BitVec.toNat_ofNat, Nat.shiftLeft_eq, Nat.mul_comm hi.toNat (2 ^ 8),
    ← Nat.two_pow_add_eq_or_of_lt h1]
  omega

/-! ### Byte splitting -/

@[simp] theorem leBytes_length (n v : Nat) : (leBytes n v).length = n := by
  induction n generalizing v with
  | zero => rfl
  | succ n ih => simp [leBytes, ih]

/-- The two bytes of a 16-bit field, low byte first. -/
theorem leBytes_two (v : Nat) : leBytes 2 v = [BitVec.ofNat 8 v, BitVec.ofNat 8 (v / 256)] := rfl

/-- Assembling the bytes of a value gives it back, as far as they reach. -/
theorem littleEndian_leBytes (n v : Nat) : littleEndian (leBytes n v) = v % 256 ^ n := by
  induction n generalizing v with
  | zero => simp [leBytes, littleEndian, Nat.mod_one]
  | succ n ih =>
    have h := Nat.mod_mul (a := 256) (b := 256 ^ n) (x := v)
    rw [Nat.mul_comm 256 (256 ^ n), ← Nat.pow_succ] at h
    rw [h, leBytes, littleEndian, ih, BitVec.toNat_ofNat]

@[simp] theorem frameBody_length (cmd : Byte) (st : Half) (params : List Byte) :
    (frameBody cmd st params).length = params.length + 8 := by
  simp [frameBody, preambleLen]
  omega

@[simp] theorem frameBytes_length (cmd : Byte) (st : Half) (params : List Byte) (k : Half) :
    (frameBytes cmd st params k).length = params.length + 10 := by
  simp [frameBytes]

/-! ### The read port -/

theorem paramByte_of_lt (s : State) (i : Half) (h : i.toNat < s.pcount.toNat) (hc : i.toNat < pbufCap) :
    s.paramByte i = s.pbuf.read i.toNat := if_pos ⟨h, hc⟩

theorem paramByte_of_ge (s : State) (i : Half) (h : s.pcount.toNat ≤ i.toNat) : s.paramByte i = 0 :=
  if_neg fun a => Nat.not_lt.mpr h a.1

/-- The parameters the host can read are the bytes PBUF holds below PCOUNT. -/
theorem params_eq (s : State) (params : List Byte) (hc : s.pcount.toNat = params.length)
    (hl : params.length ≤ pbufCap) (hr : ∀ k b, params[k]? = some b → s.pbuf.read k = b) :
    s.params = params := by
  have hcap : params.length ≤ 65533 := hl
  apply List.ext_getElem?
  intro k
  by_cases hk : k < params.length
  · have e := List.getElem?_eq_getElem hk
    have ek : (BitVec.ofNat 16 k).toNat = k := by
      rw [BitVec.toNat_ofNat]
      omega
    rw [e, State.params, List.getElem?_map, List.getElem?_range (by omega), Option.map_some,
      paramByte_of_lt s _ (by omega) (by omega), ek, hr k _ e]
  · rw [List.getElem?_eq_none (by simp [State.params]; omega), List.getElem?_eq_none (by omega)]

/-! ### Completion -/

/-- All a completion can do: the decode function answers, its result is written back, the input is released and
BUSY falls. -/
theorem completeWith_cases (p : Params) (s t : State) (h : completeWith p s = .next t) :
    ∃ r u, decodeHW p s = .ok r ∧ writeBack s r = .ok u ∧ t = u.emptyInput.lowerBusy := by
  unfold completeWith at h
  split at h
  · cases h
  · next r hr =>
    split at h
    · cases h
    · next u hu => exact ⟨r, u, hr, hu, by cases h; rfl⟩

/-- All a write-back can do. -/
theorem writeBack_cases (s u : State) (r : FrameResult) (h : writeBack s r = .ok u) :
    (∃ o, r = .fail o ∧ u = s.writeFailure o) ∨
      ∃ c st params, r = .ok c st params ∧ params.length ≤ pbufCap ∧ u = s.writeMessage c st params := by
  cases r with
  | fail o => exact .inl ⟨o, rfl, by cases h; rfl⟩
  | ok c st params =>
    simp only [writeBack] at h
    split at h
    · exact .inr ⟨c, st, params, rfl, by assumption, by cases h; rfl⟩
    · cases h

end Sys2Proof.Machine
end

