-- ==== Sys2Proof/Laws/PerInstr.lean ====
section
/-! SUPPORT. Statements about every instruction as text, one lemma per constructor. -/

namespace Sys2Proof.Laws

/-- The port an instruction comes through, and its opcode in spec/opcode_table.json (R56, R96). -/
def OpcodeField.Statement (i : Instr) : Prop :=
  match i with
  | .push b => encode i = .command (0x0100 ||| b.setWidth 16)
  | .decode => encode i = .command 0x0200
  | .clear => encode i = .command 0x0300
  | .rdParam k => encode i = .readIndex k

theorem OpcodeField.push (b : Byte) : OpcodeField.Statement (.push b) := by
  revert b
  simp only [OpcodeField.Statement]
  decide

theorem OpcodeField.decode : OpcodeField.Statement .decode := rfl

theorem OpcodeField.clear : OpcodeField.Statement .clear := rfl

theorem OpcodeField.rdParam (i : Half) : OpcodeField.Statement (.rdParam i) := rfl

end Sys2Proof.Laws
end

