-- ==== Sys2Proof/Laws/Step.lean ====
section
/-! SUPPORT. What a step can do, said once. -/

namespace Sys2Proof.Machine

/-- A step to a next state is one of six transitions. -/
theorem step_cases (s t : State) (h : step s = .next t) :
    (nextAction s = .idle ∧ t = s) ∨
    (nextAction s = .complete ∧ completeDecode s = .next t) ∨
    (nextAction s = .endWait ∧ t = s.takeEvent) ∨
    (nextAction s = .reset ∧ t = s.takeEvent.resetInput) ∨
    (∃ p, nextAction s = .readPort p ∧ t = s.takeEvent.recordRead (s.portValue p)) ∨
    (∃ i, nextAction s = .run i ∧ exec i s.takeEvent = .next t) := by
  unfold step at h
  split at h
  · next e => cases h; exact .inl ⟨e, rfl⟩
  · next e => exact .inr (.inl ⟨e, h⟩)
  · next e => cases h; exact .inr (.inr (.inl ⟨e, rfl⟩))
  · next e => cases h; exact .inr (.inr (.inr (.inl ⟨e, rfl⟩)))
  · next p e => cases h; exact .inr (.inr (.inr (.inr (.inl ⟨p, e, rfl⟩))))
  · next i e => exact .inr (.inr (.inr (.inr (.inr ⟨i, e, h⟩))))
  · cases h

/-- The decoder agent moves only while BUSY is 1 (R123). -/
theorem busy_of_nextAction_complete (s : State) (h : nextAction s = .complete) : s.busy = true := by
  unfold nextAction at h
  split at h
  · split at h <;> simp_all
  · split at h <;> simp_all
  · cases h
  · cases h
  · split at h
    · simp_all
    · unfold acceptRequest at h
      split at h <;> cases h

/-- A reset action comes from a reset event. -/
theorem head_of_nextAction_reset (s : State) (h : nextAction s = .reset) :
    ∃ es, s.schedule = .reset :: es := by
  unfold nextAction at h
  split at h
  · split at h <;> cases h
  · split at h <;> cases h
  · exact ⟨_, by assumption⟩
  · cases h
  · split at h
    · cases h
    · unfold acceptRequest at h
      split at h <;> cases h

/-- The block takes an instruction from a request that decodes to it, and a command only while BUSY is 0. -/
theorem head_of_nextAction_run (s : State) (i : Instr) (h : nextAction s = .run i) :
    ∃ r es, s.schedule = .request r :: es ∧ decodeRequest r = .ok i ∧
      (s.busy = false ∨ heldWhileBusy r = false) := by
  unfold nextAction at h
  split at h
  · split at h <;> cases h
  · split at h <;> cases h
  · cases h
  · cases h
  · next r es e =>
    split at h
    · cases h
    · next hb =>
      unfold acceptRequest at h
      split at h
      · next j hj =>
        cases h
        refine ⟨r, es, e, hj, ?_⟩
        cases hs : s.busy
        · exact .inl rfl
        · exact .inr (by simpa [hs] using hb)
      · cases h

/-! ### Runs -/

theorem runFor_zero (s : State) : runFor 0 s = .next s := rfl

theorem coreRun_next (M : Host.Core) (n : Nat) (s t : M.State) (h : M.step s = .next t) :
    M.run (n + 1) s = M.run n t := by
  simp [Host.Core.run, h]

theorem coreRun_cases (M : Host.Core) (n : Nat) (s t : M.State) (h : M.run (n + 1) s = .next t) :
    ∃ u, M.step s = .next u ∧ M.run n u = .next t := by
  rw [Host.Core.run] at h
  split at h
  · exact ⟨_, by assumption, h⟩
  · cases h
  · cases h

/-- A run goes on from the next state of its first step. -/
theorem runFor_succ_of_next (n : Nat) (s t : State) (h : step s = .next t) :
    runFor (n + 1) s = runFor n t :=
  coreRun_next Sys2Proof.core n s t h

/-- A run that answers a next state takes a first step to one. -/
theorem runFor_succ_cases (n : Nat) (s t : State) (h : runFor (n + 1) s = .next t) :
    ∃ u, step s = .next u ∧ runFor n u = .next t :=
  coreRun_cases Sys2Proof.core n s t h

/-- A run of `m` steps and one of `n` after it are one run. -/
theorem runFor_add (m n : Nat) (s t : State) (h : runFor m s = .next t) : runFor (m + n) s = runFor n t := by
  induction m generalizing s with
  | zero => cases h; rw [Nat.zero_add]
  | succ m ih =>
    obtain ⟨u, h1, h2⟩ := runFor_succ_cases m s t h
    rw [Nat.succ_add, runFor_succ_of_next (m + n) s u h1]
    exact ih u h2

/-- What every step keeps, every run keeps. -/
theorem runFor_keeps (inv : State → Prop) (hkeep : ∀ s t, inv s → step s = .next t → inv t) (n : Nat)
    (s t : State) (hs : inv s) (h : runFor n s = .next t) : inv t := by
  induction n generalizing s with
  | zero => cases h; exact hs
  | succ n ih =>
    obtain ⟨u, h1, h2⟩ := runFor_succ_cases n s t h
    exact ih u (hkeep s u hs h1) h2

end Sys2Proof.Machine
end

