-- ==== Sys2Proof/Tests/Slice0.lean ====
section
/-! SUPPORT. The model's own tests. Expected values are the spec's own examples and vectors (spec/95_test_vectors.md
unless said otherwise). The `witness_` theorems show that the hypotheses of each obligation can be met together. -/

namespace Sys2Proof.Machine.Tests

/-! ### Well-formedness: an ill-formed term for each check -/

theorem test_wf_reserved_request : (Request.command 0x0400).wellFormed = false ∧
    (Request.command 0x0000).wellFormed = false ∧ (Request.command 0x00FF).wellFormed = false ∧
    (Request.command 0x03A5).wellFormed = true ∧ (Request.readIndex 0xFFFF).wellFormed = true := by decide

theorem test_wf_imm8 : (AsmLine.push 256).wellFormed = false ∧ (AsmLine.push 255).wellFormed = true ∧
    (AsmLine.pushb [1, 256]).wellFormed = false := by decide

theorem test_wf_frame_fields : (AsmLine.frame 256 0 [] 0).wellFormed = false ∧
    (AsmLine.frame 0 65536 [] 0).wellFormed = false ∧ (AsmLine.frame 0 0 [256] 0).wellFormed = false ∧
    (AsmLine.frame 0 0 [] 65536).wellFormed = false ∧ (AsmLine.frame 255 65535 [255] 65535).wellFormed = true ∧
    (AsmLine.framec 256 0 []).wellFormed = false := by decide

theorem test_wf_frame_too_long (params : List Nat) (h : params.length = 65534) :
    (AsmLine.framec 0 0 params).wellFormed = false := by
  have : ¬ params.length ≤ maxParams := by
    rw [h]
    decide
  simp [AsmLine.wellFormed, this]

/-! ### Decoding: words written out bit by bit from R56 -/

theorem test_decode_push : decodeCommand 0b0000000110101010 = .ok (.push 0b10101010) := by decide
theorem test_decode_decode : decodeCommand 0b0000001011111111 = .ok .decode := by decide
theorem test_decode_clear : decodeCommand 0b0000001110100101 = .ok .clear := by decide
theorem test_decode_rdParam : decodeRequest (.readIndex 0xFFFF) = .ok (.rdParam 0xFFFF) := by decide
theorem test_decode_reserved : decodeCommand 0b0000010000000000 = .error (.reservedOpcode 0x0400) := by decide
theorem test_encode_push : encode (.push 0xAA) = .command 0x01AA := by decide
theorem test_decodeTableWord : decodeTableWord 16 0x0177 = some (.push 0x77) ∧
    decodeTableWord 16 0x0200 = some .decode ∧ decodeTableWord 16 0x0300 = some .clear ∧
    decodeTableWord 16 0xFF00 = none := by decide

/-! ### Program text (R60, R61) -/

theorem test_parse_push : parseLine "PUSH 0xAA ; 01AA".toList = .line (.push 0xAA) := by decide
theorem test_parse_rejects : parseLine "PUSH 256".toList = .rejected ∧ parseLine "PUSH".toList = .rejected := by
  decide
theorem test_parse_blank : parseLine "  ; a comment".toList = .blank := by decide
theorem test_parse_command : parseLine "\tDECODE".toList = .line .decode ∧
    parseLine "CLEAR;x".toList = .line .clear ∧ parseLine "PUSH 18".toList = .line (.push 18) := by decide

/-! ### Helpers -/

/-- CHECKSUM_ENABLE false ("dis"). -/
def dis : Params := ⟨false, fun _ => 0⟩

/-- One bit of CRC-16/CCITT-FALSE. -/
def crcBit (r : Half) : Half := if r.getLsbD 15 then (r <<< 1) ^^^ 0x1021 else r <<< 1

/-- One byte of CRC-16/CCITT-FALSE. -/
def crcByte (r : Half) (b : Byte) : Half :=
  crcBit (crcBit (crcBit (crcBit (crcBit (crcBit (crcBit (crcBit (r ^^^ (b.setWidth 16 <<< 8)))))))))

/-- K_ILL of section 4, an illustrative configuration that is NOT the device's. -/
def ill : Params := ⟨true, fun bytes => bytes.foldl crcByte 0xFFFF⟩

/-- The exclusive or of all bytes: a checksum with SINGLE_BIT_DETECT_ALL. -/
def parity : Params := ⟨true, fun bytes => (bytes.foldl (· ^^^ ·) 0).setWidth 16⟩

/-- A DECODE in flight over `bytes`. -/
def inFlight (bytes : List Byte) : State :=
  { State.reset with ibuf := Memory.writeList [] 0 bytes, ilen := BitVec.ofNat 17 bytes.length, busy := true }

/-- The state after the V1-17 frame has been decoded: PCOUNT 3, parameters 11 22 33. -/
def afterV17 : State :=
  { State.reset with
    result := 1, cmd := 0x21, status := 0x000E, pcount := 3, pbuf := [(0, 0x11), (1, 0x22), (2, 0x33)] }

/-- The next state of an outcome. -/
def nextOf (o : Host.Outcome State Fault Refusal) : Option State :=
  match o with
  | .next s => some s
  | .fault _ => none
  | .refused _ => none

/-- The V1-17 frame. -/
def frameV17 : List Byte := [0xAA, 0xAA, 0xAA, 0x21, 0x05, 0x00, 0x0E, 0x00, 0x11, 0x22, 0x33, 0x00, 0x00]

/-! ### The decode function -/

/-- V1-1, V1-3, V1-4, V1-11, V1-12, V1-13, V1-15, V1-17, V1-18, V1-20, V1-21. -/
theorem test_vectors_disabled :
    decodeFn dis [] = .ok (.fail .frameTooShort) ∧
    decodeFn dis [0, 0, 0, 0, 0, 0, 0, 0, 0] = .ok (.fail .frameTooShort) ∧
    decodeFn dis [0xAA, 0xAA, 0xAA, 5, 2, 0, 0, 0, 0, 0] = .ok (.ok 0x05 0x0000 []) ∧
    decodeFn dis [0xAA, 0xAA, 0, 5, 2, 0, 0, 0, 0, 0, 0] = .ok (.fail .badPreamble) ∧
    decodeFn dis [0xAA, 0xAA, 0xAA, 5, 0, 0, 0, 0, 0, 0, 0, 0] = .ok (.fail .payloadTooSmall) ∧
    decodeFn dis [0xAA, 0xAA, 0xAA, 5, 0, 1, 0, 0, 0, 0] = .ok (.fail .lengthMismatch) ∧
    decodeFn dis [0xAA, 0xAA, 0xAA, 5, 2, 0, 0x34, 0x12, 0, 0] = .ok (.ok 0x05 0x1234 []) ∧
    decodeFn dis frameV17 = .ok (.ok 0x21 0x000E [0x11, 0x22, 0x33]) ∧
    decodeFn dis frameV17.dropLast = .ok (.fail .lengthMismatch) ∧
    decodeFn dis [0xAA, 0xAA, 0xAA, 5, 0xFA, 0xFF, 0, 0, 0, 0] = .ok (.fail .lengthMismatch) ∧
    decodeFn dis [0xAA, 0xAA, 0xAA, 0xAA, 4, 0, 0xAA, 0xAA, 0xAA, 0xAA, 0, 0] =
      .ok (.ok 0xAA 0xAAAA [0xAA, 0xAA]) := by decide

/-- K1, K2, K4, K5 of section 4. -/
theorem test_vectors_enabled :
    decodeFn ill [0xAA, 0xAA, 0xAA, 5, 2, 0, 0, 0, 0xFF, 0xB9] = .ok (.ok 0x05 0x0000 []) ∧
    decodeFn ill [0xAA, 0xAA, 0xAA, 5, 2, 0, 0, 0, 0xB9, 0xFF] = .ok (.fail .checksumError) ∧
    decodeFn ill [0xAA, 0xAA, 0xAA, 0x21, 5, 0, 0x0E, 0, 0x11, 0x22, 0x33, 0x9F, 0xD3] =
      .ok (.ok 0x21 0x000E [0x11, 0x22, 0x33]) ∧
    decodeFn ill [0xAA, 0xAA, 0xAA, 0x10, 4, 0, 0, 0, 1, 2, 0x2B, 0x6A] = .ok (.ok 0x10 0x0000 [1, 2]) := by
  decide +kernel

/-- R62: FRAME's expansion of S2, the words of program P2. -/
theorem test_frame_expansion : frameBytes 0x21 0x000E [0x11, 0x22, 0x33] 0xD39F =
    [0xAA, 0xAA, 0xAA, 0x21, 0x05, 0x00, 0x0E, 0x00, 0x11, 0x22, 0x33, 0x9F, 0xD3] := by decide

/-! ### One step of each instruction -/

/-- V3-2. -/
theorem test_push_first : (nextOf (exec (.push 0xAA) State.reset)).map (fun t => (t.ilen, t.ibuf.read 0, t.iovf)) =
    some (1, 0xAA, false) := by decide

/-- V3-3 and V3-4: the last free index, and the full buffer. -/
theorem test_push_at_capacity :
    (nextOf (exec (.push 0x12) { State.reset with ilen := 65542 })).map
      (fun t => (t.ilen, t.ibuf.read 65542, t.iovf)) = some (65543, 0x12, false) ∧
    (nextOf (exec (.push 0x12) { State.reset with ilen := 65543 })).map (fun t => (t.ilen, t.ibuf, t.iovf)) =
      some (65543, [], true) := by decide

/-- V3-5 and V3-6. -/
theorem test_clear : (nextOf (exec .clear { afterV17 with ilen := 65543, iovf := true })).map
    (fun t => (t.ilen, t.iovf, t.result, t.cmd)) = some (0, false, 1, 0x21) := by decide

/-- The example of R75. -/
theorem test_decode_accept : (nextOf (exec .decode State.reset)).map (·.busy) = some true := by decide

/-- V1-17 through the block: completion writes the ports and empties the input. -/
theorem test_decode_complete : (nextOf (completeWith dis (inFlight frameV17))).map
    (fun t => (t.message, t.ilen, t.busy)) = some (some (0x21, 0x000E, [0x11, 0x22, 0x33]), 0, false) := by
  decide +kernel

/-- V5-1, V5-2, V5-3. -/
theorem test_rdParam : (nextOf (exec (.rdParam 2) afterV17)).map (·.received) = some [.param 2 0x33] ∧
    (nextOf (exec (.rdParam 3) afterV17)).map (·.received) = some [.param 3 0x00] ∧
    (nextOf (exec (.rdParam 65535) afterV17)).map (·.received) = some [.param 65535 0x00] := by decide

/-- The first step after reset runs the word offered first. -/
theorem test_fetch_after_reset : (nextOf (step (State.reset.withFetchWord 16 0x01AA))).map
    (fun t => (t.ilen, t.schedule)) = some (1, []) := by decide

/-- V3-13: reset with a DECODE in flight. -/
theorem test_reset_in_flight : (nextOf (step { inFlight frameV17 with schedule := [.reset] })).map
    (fun t => (t.busy, t.result, t.ilen)) = some (false, 0, 0) := by decide

/-! ### The hypotheses of the obligations can be met -/

theorem witness_CommandWordsFollowTheOpcodeMap :
    ((0x0100 : Half) &&& 0xFF00 = 0x0100 ∧ (0x01FF : Half) &&& 0xFF00 = 0x0100) ∧
    ((0x0200 : Half) &&& 0xFF00 = 0x0200 ∧ (0x02FF : Half) &&& 0xFF00 = 0x0200) ∧
    ((0x0300 : Half) &&& 0xFF00 = 0x0300 ∧ (0x03FF : Half) &&& 0xFF00 = 0x0300) ∧
    ((0x00FF : Half) &&& 0xFF00 ≠ 0x0100 ∧ (0x00FF : Half) &&& 0xFF00 ≠ 0x0200 ∧
      (0x00FF : Half) &&& 0xFF00 ≠ 0x0300) ∧
    ((0x0400 : Half) &&& 0xFF00 ≠ 0x0100 ∧ (0x0400 : Half) &&& 0xFF00 ≠ 0x0200 ∧
      (0x0400 : Half) &&& 0xFF00 ≠ 0x0300) := by decide

theorem witness_DecodeAndEncodeAgree : (Instr.push 0xFF).wellFormed = true ∧
    decodeRequest (.command 0x01FF) = .ok (.push 0xFF) ∧ Instr.push 0xFF ≠ .decode ∧ Instr.push 0xFF ≠ .clear ∧
    decodeRequest (.readIndex 0xFFFF) = .ok (.rdParam 0xFFFF) := by decide

/-- At index 65542 the byte is stored, at 65543 the buffer is full. -/
theorem witness_PushAppendsOneByte : State.reset.busy = false ∧ State.reset.ibuf.wf ∧
    ({ State.reset with ilen := 65542 } : State).ilen.toNat < 65543 ∧
    ¬({ State.reset with ilen := 65543 } : State).ilen.toNat < 65543 := by decide

theorem witness_PushOnAFullBufferOverflows :
    (({ State.reset with ilen := 65543 } : State).busy = false ∧
      ({ State.reset with ilen := 65543 } : State).ilen.toNat = 65543) ∧
    (∃ t, ({ State.reset with iovf := true } : State).iovf = true ∧
      exec (.push 1) { State.reset with iovf := true } = .next t) ∧
    ∃ s t : State, s.iovf = true ∧ step s = .next t ∧ t.iovf = false :=
  ⟨by decide, ⟨_, rfl, whenReady_of_ready { State.reset with iovf := true } _ rfl⟩,
    ⟨{ State.reset with iovf := true, schedule := [.request (.command 0x0300)] }, _, rfl, rfl, rfl⟩⟩

theorem witness_ClearEmptiesTheInput : afterV17.busy = false ∧ (inFlight []).busy = true := by decide

theorem witness_DecodeAcceptanceRaisesBusy :
    afterV17.busy = false ∧ afterV17.ilen = 0 ∧ (inFlight frameV17).busy = true := by decide

/-- The last parameter, the first index at PCOUNT, and the first index PBUF does not have. -/
theorem witness_RdParamReadsOneByte : afterV17.pcount.toNat ≤ 65533 ∧ (2 : Half).toNat < afterV17.pcount.toNat ∧
    ¬(3 : Half).toNat < afterV17.pcount.toNat ∧ 65533 ≤ (65533 : Half).toNat ∧
    ({ afterV17 with pcount := 65533 } : State).pcount.toNat ≤ 65533 := by decide

theorem witness_CommandsAreHeldWhileBusy :
    (inFlight frameV17).busy = true ∧
    ({ inFlight frameV17 with schedule := [.request (.command 0x0177)] } : State).schedule =
      .request (.command 0x0177) :: [] ∧
    decodeCommand 0x0177 = .ok (.push 0x77) := by decide

theorem witness_FailureWriteBack : decodeHW dis (inFlight []) = .ok (.fail .frameTooShort) ∧
    decodeHW dis (inFlight frameV17.dropLast) = .ok (.fail .lengthMismatch) ∧
    decodeHW ill (inFlight frameV17) = .ok (.fail .checksumError) := by decide +kernel

theorem witness_SuccessWriteBack : (inFlight frameV17).pbuf.wf ∧
    decodeHW dis (inFlight frameV17) = .ok (.ok 0x21 0x000E [0x11, 0x22, 0x33]) := by decide

theorem witness_DecodeNeverReadsOutsideTheInput : (List.replicate 9 (0xAA : Byte)).length < 10 := by decide

/-- The same input after another earlier result. -/
theorem witness_DecodesAreIndependent : ∃ s s' t t' : State, s ≠ s' ∧ s.pbuf.wf ∧ s'.pbuf.wf ∧ s'.ilen = s.ilen ∧
    s'.iovf = s.iovf ∧ (∀ i, i < s.ilen.toNat → s'.ibuf.read i = s.ibuf.read i) ∧
    completeWith dis s = .next t ∧ completeWith dis s' = .next t' :=
  ⟨inFlight frameV17, { inFlight frameV17 with result := 1, pbuf := [(0, 7)], pcount := 1 }, _, _,
    by decide, by decide, by decide, rfl, rfl, fun _ _ => rfl, rfl, rfl⟩

theorem witness_DecodeConsumesItsInput : ∃ t, completeWith dis (inFlight frameV17) = .next t := ⟨_, rfl⟩

theorem witness_DisabledChecksumIgnoresTheTrailer : dis.checksumEnable = false := rfl

/-- The longest parameter sequence a frame can carry. -/
theorem longest_params : (List.replicate 65533 (0x5A : Byte)).length ≤ 65533 :=
  List.length_replicate.le

theorem witness_WrongChecksumIsReported : ill.checksumEnable = true ∧ ([] : List Byte).length ≤ 65533 ∧
    (0xFFB9 : Half) ≠ ill.checksum16 (frameBody 0x05 0x0000 []) := by decide +kernel

theorem witness_PaddedOrTruncatedFramesFail : ([0x7F] : List Byte).length ≤ 65533 ∧ ([0x7F] : List Byte) ≠ [] ∧
    ([] : List Byte).length ≤ 65533 ∧ ([] : List Byte) = [] ∧
    (List.replicate 65533 (0x5A : Byte)).length ≤ 65533 :=
  ⟨by decide, by decide, by decide, rfl, longest_params⟩

theorem witness_FrameRoundTrip : (List.replicate 65533 (0x5A : Byte)).length ≤ 65533 ∧
    decodeFn dis frameV17 = .ok (.ok 0x21 0x000E [0x11, 0x22, 0x33]) := ⟨longest_params, by decide⟩

/-- The exclusive or of all bytes, from any start, changes when one bit of one byte is flipped. -/
theorem parity_flip (bytes : List Byte) (r : Byte) (i j : Nat) (hi : i < bytes.length) :
    (flipBit bytes i j).foldl (· ^^^ ·) r = bytes.foldl (· ^^^ ·) r ^^^ (1#8 <<< j) := by
  have hshift : ∀ (l : List Byte) (x y : Byte),
      l.foldl (· ^^^ ·) (x ^^^ y) = l.foldl (· ^^^ ·) x ^^^ y := by
    intro l
    induction l with
    | nil => intro x y; rfl
    | cons c l ih =>
      intro x y
      rw [List.foldl_cons, List.foldl_cons, BitVec.xor_assoc, BitVec.xor_comm y c, ← BitVec.xor_assoc, ih]
  induction bytes generalizing r i with
  | nil => cases hi
  | cons b bytes ih =>
    cases i with
    | zero =>
      show bytes.foldl (· ^^^ ·) (r ^^^ (b ^^^ (1#8 <<< j))) = _
      rw [← BitVec.xor_assoc, hshift]
      rfl
    | succ i => exact ih (r ^^^ b) i (Nat.lt_of_succ_lt_succ hi)

theorem parity_detects : SingleBitDetectAll parity.checksum16 := by
  intro bytes i j _ hi hj h
  have hflip := parity_flip bytes 0 i j hi
  have hx := congrArg (BitVec.setWidth 8) h
  simp only [parity, BitVec.setWidth_setWidth_of_le _ (show 8 ≤ 16 by decide), BitVec.setWidth_eq] at hx
  rw [hflip] at hx
  have h0 : (1#8 <<< j) = 0#8 := by
    have := congrArg (fun x => bytes.foldl (· ^^^ ·) (0 : Byte) ^^^ x) hx
    simpa [← BitVec.xor_assoc] using this.symm
  have hne : ∀ k < 8, (1#8 <<< k) ≠ 0#8 := by decide
  exact hne j hj h0

/-- The first and the last bit of the payload, and a bit of the Command ID. -/
theorem witness_BitFlipsAreDetected : parity.checksumEnable = true ∧ ([0x7F] : List Byte).length ≤ 65533 ∧
    SingleBitDetect parity.checksum16 ∧ SingleBitDetectAll parity.checksum16 ∧
    (6 ≤ 6 ∧ 6 < ([0x7F] : List Byte).length + 8 ∧ 0 < 8) ∧ (6 ≤ 8 ∧ 8 < ([0x7F] : List Byte).length + 8 ∧ 7 < 8) :=
  ⟨rfl, by decide, fun b i j h1 _ h3 h4 => parity_detects b i j h1 h3 h4, parity_detects, by decide, by decide⟩

theorem witness_FramePseudoInstructionsPushAFrame :
    (AsmLine.frame 0x21 0x000E [0x11] 0xFFFF).wellFormed = true ∧ dis.checksumEnable = false ∧
    (AsmLine.framec 0xFF 0xFFFF [0xFF]).wellFormed = true := by decide

/-- One byte pushed. -/
theorem view_of_one : ViewOf [0xAA] { State.reset with ibuf := [(0, 0xAA)], ilen := 1 } where
  ilen_eq := by decide
  byte_eq := by decide
  iovf_iff := by decide

theorem witness_StepKeepsTheViewOfTheVirtualBuffer : ∃ s t : State, s.ibuf.wf ∧ ViewOf [0xAA] s ∧ step s = .next t :=
  ⟨{ State.reset with ibuf := [(0, 0xAA)], ilen := 1, schedule := [.request (.command 0x01FF)] }, _, by decide,
    ⟨view_of_one.1, view_of_one.2, view_of_one.3⟩, rfl⟩

theorem witness_InputIsTheBoundedViewOfWhatWasPushed : ∃ t,
    runFor 2 { State.reset with schedule := [.request (.command 0x01FF), .request (.command 0x0300)] } = .next t :=
  ⟨_, rfl⟩

/-- The virtual buffer one byte over the capacity. -/
theorem witness_BoundedBufferIsExact :
    ViewOf (List.replicate 65544 0) { State.reset with ilen := 65543, iovf := true } ∧
    ViewOf [0xAA] { State.reset with ibuf := [(0, 0xAA)], ilen := 1 } := by
  have hlen : (List.replicate 65544 (0 : Byte)).length = 65544 := List.length_replicate
  refine ⟨⟨by rw [hlen]; decide, fun i hi => ?_, by rw [hlen]; decide⟩, view_of_one⟩
  have hi' : i < 65543 := hi
  rw [List.getElem?_replicate, if_pos (by omega)]
  rfl

theorem reset_canonical : State.reset.StoresCanonical :=
  ⟨by decide, by decide, by decide, by decide⟩

theorem reset_legal : State.reset.Legal := ⟨by decide, by decide, by decide, by decide, by decide⟩

theorem witness_PushedBufferDecodesAsTheDocumentSays : State.reset.InputEmpty ∧ State.reset.StoresCanonical :=
  ⟨⟨rfl, rfl, rfl⟩, reset_canonical⟩

/-- A completion that reports FRAME_TOO_SHORT. -/
theorem short_completion : ∃ t, step (inFlight []) = .next t ∧ t.result = 2 ∧ t.busy = false := ⟨_, rfl, rfl, rfl⟩

theorem inFlight_legal : (inFlight []).Legal := ⟨by decide, by decide, by decide, by decide, by decide⟩

theorem witness_StepKeepsStateLegal : ∃ s t : State, s.Legal ∧ step s = .next t :=
  ⟨inFlight [], _, inFlight_legal, rfl⟩

theorem witness_StepKeepsStoresCanonical : ∃ s t : State, s.StoresCanonical ∧ step s = .next t :=
  ⟨inFlight [], _, ⟨by decide, by decide, by decide, by decide⟩, rfl⟩

theorem witness_ReachableStatesAreLegal : ∃ t,
    runFor 2 { State.reset with schedule := [.request (.command 0x0200)] } = .next t ∧ t.result ≠ 1 :=
  ⟨_, rfl, by decide⟩

/-- Two states that differ in hidden bytes only. -/
theorem witness_HiddenBytesAreNeverSeen : ∃ s s' : State, s ≠ s' ∧ s.StoresCanonical ∧ s'.StoresCanonical ∧
    SameButHidden s s' :=
  ⟨afterV17, { afterV17 with ibuf := [(5, 7)], pbuf := [(0, 0x11), (1, 0x22), (2, 0x33), (3, 0x44)] }, by decide,
    ⟨by decide, by decide, by decide, by decide⟩, ⟨by decide, by decide, by decide, by decide⟩,
    ⟨rfl, rfl, rfl, rfl, rfl, rfl, rfl, rfl, rfl, by decide, by decide⟩⟩

theorem witness_ResultChangesOnlyAtCompletionOrReset :
    (∃ t, step (inFlight []) = .next t ∧ ¬ SameResult (inFlight []) t) ∧
    ∃ t, step { afterV17 with schedule := [.reset] } = .next t ∧
      ¬ SameResult { afterV17 with schedule := [.reset] } t :=
  ⟨⟨_, rfl, fun h => absurd h.1 (by decide)⟩, ⟨_, rfl, fun h => absurd h.1 (by decide)⟩⟩

/-- The last index of IBUF. -/
theorem witness_OnlyPushWritesTheInputBuffer : ∃ s t : State, s.ibuf.wf ∧ step s = .next t ∧
    t.ibuf.read 65542 ≠ s.ibuf.read 65542 :=
  ⟨{ State.reset with ilen := 65542, schedule := [.request (.command 0x01FF)] }, _, by decide, rfl, by decide⟩

theorem witness_BusyRisesAndFallsAsDecodeRuns :
    (∃ s t : State, step s = .next t ∧ s.busy = false ∧ t.busy = true) ∧
    ∃ s t : State, step s = .next t ∧ s.busy = true ∧ t.busy = false :=
  ⟨⟨{ State.reset with schedule := [.request (.command 0x02FF)] }, _, rfl, rfl, rfl⟩, ⟨inFlight [], _, rfl, rfl, rfl⟩⟩

theorem witness_ResetClearsEveryPort :
    ({ inFlight frameV17 with schedule := [.reset, .wait] } : State).schedule = .reset :: [.wait] := rfl

/-- A command with BUSY 0, and a read with BUSY 1. -/
theorem witness_StepRunsTheOfferedInstruction :
    (decodeRequest (.command 0x01FF) = .ok (.push 0xFF) ∧ (Instr.push 0xFF).wellFormed = true ∧
      ({ State.reset with schedule := [.request (.command 0x01FF)] } : State).busy = false) ∧
    decodeRequest (.readIndex 3) = .ok (.rdParam 3) ∧ (Instr.rdParam 3).wellFormed = true ∧
    ({ inFlight [] with schedule := [.request (.readIndex 3)] } : State).schedule =
      .request (.readIndex 3) :: [] := by decide

theorem witness_ReservedCommandWordIsRefused :
    ({ State.reset with schedule := [.request (.command 0x0400)] } : State).busy = false ∧
    ({ State.reset with schedule := [.request (.command 0x0400)] } : State).schedule =
      .request (.command 0x0400) :: [] ∧
    (0x0400 : Half) &&& 0xFF00 ≠ 0x0100 ∧ (0x0400 : Half) &&& 0xFF00 ≠ 0x0200 ∧
    (0x0400 : Half) &&& 0xFF00 ≠ 0x0300 := by decide

theorem witness_PortReadHasNoSideEffect :
    ({ inFlight [] with schedule := [.readPort .busy] } : State).schedule = .readPort .busy :: [] := rfl

theorem witness_EndedRunPersists : afterV17.RunEnded := ⟨rfl, rfl⟩

theorem witness_WaitEndsWhenBusyIsZero :
    (({ afterV17 with schedule := [.wait] } : State).schedule = .wait :: [] ∧
      ({ afterV17 with schedule := [.wait] } : State).busy = false) ∧
    (({ inFlight frameV17 with schedule := [.wait] } : State).schedule = .wait :: [] ∧
      ({ inFlight frameV17 with schedule := [.wait] } : State).busy = true) := by decide

theorem witness_DutifulHostNeverStopsTheMachine :
    ({ inFlight frameV17 with
      schedule := [.readPort .result, .request (.command 0x01FF), .wait, .request (.readIndex 0), .reset] } :
      State).HostDutiful := by
  unfold State.HostDutiful
  decide

theorem witness_AcceptedDecodeCompletes :
    ({ inFlight frameV17 with schedule := [.readPort .busy, .request (.readIndex 0)] } : State).busy = true := rfl

/-- The last place a StateFlag word fits, and the first it does not. -/
theorem witness_StateFlagWordIsLittleEndian :
    ({ afterV17 with pcount := 65533 } : State).pcount.toNat ≤ 65533 ∧
    65529 + 4 ≤ ({ afterV17 with pcount := 65533 } : State).pcount.toNat ∧
    ¬ 65530 + 4 ≤ ({ afterV17 with pcount := 65533 } : State).pcount.toNat := by decide +kernel

end Sys2Proof.Machine.Tests
end

/-! SUPPORT. Legal states (R25): every operation keeps them, so every step and every run does. -/

namespace Sys2Proof.Machine

/-! ### What `exec` can do -/

/-- All an instruction can do: nothing (a command BUSY holds), or its own effect. -/
theorem exec_cases (i : Instr) (s t : State) (h : exec i s = .next t) :
    t = s ∨ (∃ b, i = .push b ∧ t = s.pushByte b) ∨ (i = .decode ∧ t = s.raiseBusy) ∨
      (i = .clear ∧ t = s.emptyInput) ∨ ∃ k, i = .rdParam k ∧ t = s.recordRead (.param k (s.paramByte k)) := by
  cases i with
  | push b => exact (whenReady_cases s _ t h).imp And.right fun ⟨_, e⟩ => .inl ⟨b, rfl, e⟩
  | decode => exact (whenReady_cases s _ t h).imp And.right fun ⟨_, e⟩ => .inr (.inl ⟨rfl, e⟩)
  | clear => exact (whenReady_cases s _ t h).imp And.right fun ⟨_, e⟩ => .inr (.inr (.inl ⟨rfl, e⟩))
  | rdParam k => exact .inr (.inr (.inr (.inr ⟨k, rfl, by cases h; rfl⟩)))

/-- RESULT's code of a failure is one of 2 to 6 (R19). -/
theorem Failure.code_ne (o : Failure) : o.code ≠ 7 ∧ o.code ≠ resultOk := by
  cases o <;> decide

namespace State.Legal

variable {s : State}

theorem reset_withSchedule (es : List Event) : State.Legal { State.reset with schedule := es } where
  ilen_le := Nat.zero_le _
  full_of_overflow h := nomatch h
  pcount_le := Nat.zero_le _
  result_ne := by simp [State.reset]
  no_message _ := ⟨rfl, rfl, rfl⟩

/-! Operations on fields that no clause reads. -/

theorem takeEvent (h : s.Legal) : s.takeEvent.Legal := { h with }

theorem recordRead (h : s.Legal) (v : HostRead) : (s.recordRead v).Legal := { h with }

theorem raiseBusy (h : s.Legal) : s.raiseBusy.Legal := { h with }

theorem lowerBusy (h : s.Legal) : s.lowerBusy.Legal := { h with }

/-! The input side. -/

theorem emptyInput (h : s.Legal) : s.emptyInput.Legal :=
  { h with
    ilen_le := Nat.zero_le _
    full_of_overflow := fun e => nomatch e }

/-- ILEN rises only below the capacity, and there IOVF is 0, so the overflow clause still holds. -/
theorem storeInput (h : s.Legal) (b : Byte) (hlt : s.ilen.toNat < ibufCap) : (s.storeInput b).Legal :=
  { h with
    ilen_le := by
      rw [storeInput_ilen_toNat s b hlt]
      exact hlt
    full_of_overflow := fun e => absurd (h.full_of_overflow e) (Nat.ne_of_lt hlt) }

theorem setOverflow (h : s.Legal) (hfull : ibufCap ≤ s.ilen.toNat) : s.setOverflow.Legal :=
  { h with full_of_overflow := fun _ => Nat.le_antisymm h.ilen_le hfull }

theorem pushByte (h : s.Legal) (b : Byte) : (s.pushByte b).Legal := by
  rcases Nat.lt_or_ge s.ilen.toNat ibufCap with hlt | hfull
  · rw [pushByte_of_lt s b hlt]
    exact h.storeInput b hlt
  · rw [pushByte_of_full s b hfull]
    exact h.setOverflow hfull

/-! The result side. -/

theorem writeFailure (h : s.Legal) (o : Failure) : (s.writeFailure o).Legal :=
  { h with
    pcount_le := Nat.zero_le _
    result_ne := o.code_ne.1
    no_message := fun _ => ⟨rfl, rfl, rfl⟩ }

theorem writeMessage (h : s.Legal) (c : Byte) (st : Half) (params : List Byte)
    (hlen : params.length ≤ pbufCap) : (s.writeMessage c st params).Legal :=
  { h with
    pcount_le := by
      rw [State.writeMessage_pcount, BitVec.toNat_ofNat]
      exact Nat.le_trans (Nat.mod_le _ _) hlen
    result_ne := by simp [resultOk]
    no_message := fun e => absurd rfl e }

theorem resetInput (s : State) : s.resetInput.Legal where
  ilen_le := Nat.zero_le _
  full_of_overflow h := nomatch h
  pcount_le := Nat.zero_le _
  result_ne := by simp [resultNone]
  no_message _ := ⟨rfl, rfl, rfl⟩

/-! Transitions. -/

theorem of_completeWith {t : State} (h : s.Legal) (p : Params) (hc : completeWith p s = .next t) : t.Legal := by
  obtain ⟨r, u, -, hu, rfl⟩ := completeWith_cases p s t hc
  have hwritten : u.Legal := by
    obtain ⟨o, -, rfl⟩ | ⟨c, st, params, -, hlen, rfl⟩ := writeBack_cases s u r hu
    · exact h.writeFailure o
    · exact h.writeMessage c st params hlen
  exact hwritten.emptyInput.lowerBusy

theorem of_exec {t : State} (h : s.Legal) (i : Instr) (he : exec i s = .next t) : t.Legal := by
  obtain rfl | ⟨b, -, rfl⟩ | ⟨-, rfl⟩ | ⟨-, rfl⟩ | ⟨k, -, rfl⟩ := exec_cases i s t he
  · exact h
  · exact h.pushByte b
  · exact h.raiseBusy
  · exact h.emptyInput
  · exact h.recordRead _

end State.Legal

/-- Every step keeps the five clauses of R25. -/
theorem step_keeps_legal (s t : State) (h : s.Legal) (hst : step s = .next t) : t.Legal := by
  obtain ⟨-, rfl⟩ | ⟨-, hc⟩ | ⟨-, rfl⟩ | ⟨-, rfl⟩ | ⟨p, -, rfl⟩ | ⟨i, -, he⟩ := step_cases s t hst
  · exact h
  · exact h.of_completeWith Params.device hc
  · exact h.takeEvent
  · exact State.Legal.resetInput _
  · exact h.takeEvent.recordRead _
  · exact h.takeEvent.of_exec i he

/-- Settles O31: the clauses hold at reset, whatever the schedule, and every step keeps them. -/
theorem reachableStatesAreLegal : Obligations.ReachableStatesAreLegal := by
  intro es n t hrun
  obtain ⟨hilen, hovf, hpcount, hresult, hmsg⟩ :=
    runFor_keeps State.Legal step_keeps_legal n _ t (State.Legal.reset_withSchedule es) hrun
  exact ⟨hilen, hovf, hpcount, hresult, hmsg⟩

end Sys2Proof.Machine

/-! SUPPORT. What a completion reads and what it shows (R26): the parser sees IBUF below ILEN, ILEN and IOVF, and the
ports show its result and nothing of an earlier one. -/

namespace Sys2Proof.Machine

/-- Reads of the input give the same byte, or the same fault, where ILEN and the bytes below it agree. -/
theorem inputByte_congr (s s' : State) (hilen : s'.ilen = s.ilen)
    (hbytes : ∀ i, i < s.ilen.toNat → s'.ibuf.read i = s.ibuf.read i) : s'.inputByte = s.inputByte := by
  funext i
  by_cases hi : i < s.ilen.toNat
  · rw [inputByte_of_lt s i hi, inputByte_of_lt s' i (hilen ▸ hi), hbytes i hi]
  · simp [State.inputByte, hilen, hi]

/-- The decode of the block's input depends on IBUF below ILEN, on ILEN and on IOVF (R26, R77). -/
theorem decodeHW_congr (p : Params) (s s' : State) (hilen : s'.ilen = s.ilen) (hiovf : s'.iovf = s.iovf)
    (hbytes : ∀ i, i < s.ilen.toNat → s'.ibuf.read i = s.ibuf.read i) : decodeHW p s' = decodeHW p s := by
  rw [decodeHW, decodeHW, inputByte_congr s s' hilen hbytes, hilen, hiovf]

/-- PBUF after the success write-back: the parameters, and above them what it held before (R87). -/
theorem writeMessage_pbuf_read (s : State) (c : Byte) (st : Half) (params : List Byte) (hwf : s.pbuf.wf) (k : Nat) :
    (s.writeMessage c st params).pbuf.read k = (params[k]?).getD (s.pbuf.read k) := by
  rw [State.writeMessage_pbuf, Memory.read_writeList _ _ _ _ hwf, if_pos (Nat.zero_le k), Nat.sub_zero]

/-- PCOUNT counts the parameters written, which its 16 bits can hold (R84). -/
theorem writeMessage_pcount_toNat (s : State) (c : Byte) (st : Half) (params : List Byte)
    (hlen : params.length ≤ pbufCap) : (s.writeMessage c st params).pcount.toNat = params.length := by
  have hcap : params.length ≤ 65533 := hlen
  rw [State.writeMessage_pcount, BitVec.toNat_ofNat]
  omega

theorem message_writeFailure (s : State) (o : Failure) : (s.writeFailure o).message = none := by
  simp [State.message, State.msgValid, o.code_ne.2]

/-- The ports show the message just written, whatever PBUF held before (R87). -/
theorem message_writeMessage (s : State) (c : Byte) (st : Half) (params : List Byte) (hwf : s.pbuf.wf)
    (hlen : params.length ≤ pbufCap) : (s.writeMessage c st params).message = some (c, st, params) := by
  have hparams : (s.writeMessage c st params).params = params :=
    params_eq _ params (writeMessage_pcount_toNat s c st params hlen) hlen fun k b hb => by
      rw [writeMessage_pbuf_read s c st params hwf, hb, Option.getD_some]
  rw [State.message, hparams]
  rfl

/-- A completion shows the decode's result on the ports and leaves the input empty. -/
theorem completeWith_shows (p : Params) (s t : State) (hwf : s.pbuf.wf) (h : completeWith p s = .next t) :
    ∃ r, decodeHW p s = .ok r ∧ ShowsResult t r ∧ t.InputEmpty := by
  obtain ⟨r, u, hr, hu, rfl⟩ := completeWith_cases p s t h
  refine ⟨r, hr, ?_, rfl, rfl, rfl⟩
  obtain ⟨o, rfl, rfl⟩ | ⟨c, st, params, rfl, hlen, rfl⟩ := writeBack_cases s u r hu
  · exact ⟨rfl, rfl, rfl, rfl, message_writeFailure s o⟩
  · exact ⟨rfl, rfl, rfl, writeMessage_pcount_toNat s c st params hlen, message_writeMessage s c st params hwf hlen⟩

/-- What the ports show of a result is determined by that result. -/
theorem showsResult_unique (r : FrameResult) (t t' : State) (h : ShowsResult t r) (h' : ShowsResult t' r) :
    t'.result = t.result ∧ t'.cmd = t.cmd ∧ t'.status = t.status ∧ t'.pcount = t.pcount ∧
      t'.message = t.message := by
  cases r with
  | fail o =>
    obtain ⟨hres, hcmd, hst, hcount, hmsg⟩ := h
    obtain ⟨hres', hcmd', hst', hcount', hmsg'⟩ := h'
    exact ⟨hres'.trans hres.symm, hcmd'.trans hcmd.symm, hst'.trans hst.symm, hcount'.trans hcount.symm,
      hmsg'.trans hmsg.symm⟩
  | ok c st params =>
    obtain ⟨hres, hcmd, hst, hcount, hmsg⟩ := h
    obtain ⟨hres', hcmd', hst', hcount', hmsg'⟩ := h'
    exact ⟨hres'.trans hres.symm, hcmd'.trans hcmd.symm, hst'.trans hst.symm,
      BitVec.eq_of_toNat_eq (hcount'.trans hcount.symm), hmsg'.trans hmsg.symm⟩

/-- Settles O15: both completions decode the same input, and the ports show that one result. -/
theorem decodesAreIndependent : Obligations.DecodesAreIndependent := by
  intro p s s' t t' hwf hwf' hilen hiovf hbytes hc hc'
  obtain ⟨r, hr, hshows, hempty, hnoovf, -⟩ := completeWith_shows p s t hwf hc
  obtain ⟨r', hr', hshows', -⟩ := completeWith_shows p s' t' hwf' hc'
  obtain rfl : r' = r := by
    rw [decodeHW_congr p s s' hilen hiovf hbytes, hr] at hr'
    cases hr'
    rfl
  obtain ⟨hres, hcmd, hst, hcount, hmsg⟩ := showsResult_unique r' t t' hshows hshows'
  exact ⟨hres, hcmd, hst, hcount, hmsg, hempty, hnoovf⟩

end Sys2Proof.Machine

/-! SUPPORT. Hidden bytes (R29): every operation takes states that differ only there to states that differ only there,
so a step of one is matched by a step of the other. -/

namespace Sys2Proof.Machine

namespace SameButHidden

variable {s s' : State}

/-! Operations that write no byte of a store. -/

theorem takeEvent (h : SameButHidden s s') : SameButHidden s.takeEvent s'.takeEvent :=
  { h with schedule := congrArg List.tail h.schedule }

theorem recordRead (h : SameButHidden s s') (v : HostRead) : SameButHidden (s.recordRead v) (s'.recordRead v) :=
  { h with received := congrArg (v :: ·) h.received }

theorem raiseBusy (h : SameButHidden s s') : SameButHidden s.raiseBusy s'.raiseBusy := { h with busy := rfl }

theorem lowerBusy (h : SameButHidden s s') : SameButHidden s.lowerBusy s'.lowerBusy := { h with busy := rfl }

theorem setOverflow (h : SameButHidden s s') : SameButHidden s.setOverflow s'.setOverflow := { h with iovf := rfl }

/-- With ILEN 0 every byte of IBUF is hidden. -/
theorem emptyInput (h : SameButHidden s s') : SameButHidden s.emptyInput s'.emptyInput :=
  { h with ilen := rfl, iovf := rfl, ibuf := fun i hi => absurd hi (Nat.not_lt_zero i) }

/-- With PCOUNT 0 every byte of PBUF is hidden. -/
theorem writeFailure (h : SameButHidden s s') (o : Failure) :
    SameButHidden (s.writeFailure o) (s'.writeFailure o) :=
  { h with
    result := rfl, cmd := rfl, status := rfl, pcount := rfl
    pbuf := fun i hi => absurd hi (Nat.not_lt_zero i) }

theorem resetInput (h : SameButHidden s s') : SameButHidden s.resetInput s'.resetInput :=
  { h with
    ilen := rfl, iovf := rfl, busy := rfl, result := rfl, cmd := rfl, status := rfl, pcount := rfl
    ibuf := fun i hi => absurd hi (Nat.not_lt_zero i)
    pbuf := fun i hi => absurd hi (Nat.not_lt_zero i) }

/-! Operations that write a store: a byte that becomes visible is one just written. -/

theorem storeInput (h : SameButHidden s s') (hwf : s.ibuf.wf) (hwf' : s'.ibuf.wf) (b : Byte)
    (hlt : s.ilen.toNat < ibufCap) : SameButHidden (s.storeInput b) (s'.storeInput b) :=
  { h with
    ilen := congrArg (· + 1) h.ilen
    ibuf := fun i hi => by
      rw [storeInput_ilen_toNat s b hlt] at hi
      rw [State.storeInput_ibuf, State.storeInput_ibuf, h.ilen, Memory.read_write _ _ _ _ hwf,
        Memory.read_write _ _ _ _ hwf']
      split
      · rfl
      · exact h.ibuf i (by omega) }

theorem pushByte (h : SameButHidden s s') (hwf : s.ibuf.wf) (hwf' : s'.ibuf.wf) (b : Byte) :
    SameButHidden (s.pushByte b) (s'.pushByte b) := by
  rcases Nat.lt_or_ge s.ilen.toNat ibufCap with hlt | hfull
  · rw [pushByte_of_lt s b hlt, pushByte_of_lt s' b (h.ilen ▸ hlt)]
    exact h.storeInput hwf hwf' b hlt
  · rw [pushByte_of_full s b hfull, pushByte_of_full s' b (h.ilen ▸ hfull)]
    exact h.setOverflow

theorem writeMessage (h : SameButHidden s s') (hwf : s.pbuf.wf) (hwf' : s'.pbuf.wf) (c : Byte) (st : Half)
    (params : List Byte) (hlen : params.length ≤ pbufCap) :
    SameButHidden (s.writeMessage c st params) (s'.writeMessage c st params) :=
  { h with
    result := rfl, cmd := rfl, status := rfl, pcount := rfl
    pbuf := fun i hi => by
      rw [writeMessage_pcount_toNat s c st params hlen] at hi
      rw [writeMessage_pbuf_read s c st params hwf, writeMessage_pbuf_read s' c st params hwf',
        List.getElem?_eq_getElem hi]
      rfl }

/-! What the host and the decoder agent see. -/

theorem nextAction_eq (h : SameButHidden s s') : nextAction s' = nextAction s := by
  rw [nextAction, nextAction, h.schedule, h.busy]

theorem paramByte_eq (h : SameButHidden s s') (i : Half) : s'.paramByte i = s.paramByte i := by
  rw [State.paramByte, State.paramByte, h.pcount]
  split
  · next hi => exact h.pbuf i.toNat hi.1
  · rfl

theorem msgValid_eq (h : SameButHidden s s') : s'.msgValid = s.msgValid := by
  rw [State.msgValid, State.msgValid, h.result]

theorem portValue_eq (h : SameButHidden s s') (p : Port) : s'.portValue p = s.portValue p := by
  cases p with
  | busy => exact congrArg HostRead.busy h.busy
  | result => exact congrArg HostRead.result h.result
  | msgValid => exact congrArg HostRead.msgValid h.msgValid_eq
  | cmd => exact congrArg HostRead.cmd h.cmd
  | status => exact congrArg HostRead.status h.status
  | pcount => exact congrArg HostRead.pcount h.pcount
  | ilen => exact congrArg HostRead.ilen h.ilen
  | iovf => exact congrArg HostRead.iovf h.iovf

theorem observe_eq (h : SameButHidden s s') : s'.observe = s.observe := by
  have hparam : s'.paramByte = s.paramByte := funext h.paramByte_eq
  rw [State.observe, State.observe, h.busy, h.result, h.msgValid_eq, h.cmd, h.status, h.pcount, h.ilen, h.iovf,
    hparam]

theorem decodeHW_eq (h : SameButHidden s s') (p : Params) : decodeHW p s' = decodeHW p s :=
  decodeHW_congr p s s' h.ilen h.iovf h.ibuf

/-! Transitions. -/

/-- The BUSY hold acts alike on both. -/
theorem whenReady_sameOutcome {a a' : State} (h : SameButHidden s s') (ha : SameButHidden a a') :
    SameOutcome (whenReady s a) (whenReady s' a') := by
  cases hb : s.busy with
  | false =>
    rw [whenReady_of_ready s a hb, whenReady_of_ready s' a' (h.busy.trans hb)]
    exact ha
  | true =>
    rw [whenReady_of_busy s a hb, whenReady_of_busy s' a' (h.busy.trans hb)]
    exact h

theorem exec_sameOutcome (h : SameButHidden s s') (hwf : s.ibuf.wf) (hwf' : s'.ibuf.wf) (i : Instr) :
    SameOutcome (exec i s) (exec i s') := by
  cases i with
  | push b => exact h.whenReady_sameOutcome (h.pushByte hwf hwf' b)
  | decode => exact h.whenReady_sameOutcome h.raiseBusy
  | clear => exact h.whenReady_sameOutcome h.emptyInput
  | rdParam k =>
    change SameButHidden (s.recordRead (.param k (s.paramByte k))) (s'.recordRead (.param k (s'.paramByte k)))
    rw [h.paramByte_eq k]
    exact h.recordRead _

theorem completeWith_sameOutcome (h : SameButHidden s s') (hwf : s.pbuf.wf) (hwf' : s'.pbuf.wf) (p : Params) :
    SameOutcome (completeWith p s) (completeWith p s') := by
  rw [completeWith, completeWith, h.decodeHW_eq p]
  cases decodeHW p s with
  | error f => rfl
  | ok r =>
    cases r with
    | fail o => exact (h.writeFailure o).emptyInput.lowerBusy
    | ok c st params =>
      by_cases hlen : params.length ≤ pbufCap
      · simp only [writeBack, if_pos hlen]
        exact (h.writeMessage hwf hwf' c st params hlen).emptyInput.lowerBusy
      · simp only [writeBack, if_neg hlen]
        rfl

theorem step_sameOutcome (h : SameButHidden s s') (hs : s.StoresCanonical) (hs' : s'.StoresCanonical) :
    SameOutcome (step s) (step s') := by
  rw [step, step, h.nextAction_eq]
  cases nextAction s with
  | idle => exact h
  | complete => exact h.completeWith_sameOutcome hs.pbuf_wf hs'.pbuf_wf Params.device
  | endWait => exact h.takeEvent
  | reset => exact h.takeEvent.resetInput
  | readPort p =>
    change SameButHidden (afterPortRead s p) (afterPortRead s' p)
    rw [afterPortRead, afterPortRead, h.portValue_eq p]
    exact h.takeEvent.recordRead _
  | run i => exact h.takeEvent.exec_sameOutcome hs.ibuf_wf hs'.ibuf_wf i
  | refuse w => rfl

end SameButHidden

/-- Settles O32: a step of one state is matched by a step of the other, and every port reads alike. -/
theorem hiddenBytesAreNeverSeen : Obligations.HiddenBytesAreNeverSeen := by
  intro s s' hs hs' h
  exact ⟨h.step_sameOutcome hs hs', h.observe_eq⟩

end Sys2Proof.Machine

/-! SUPPORT. The opcode map (R56 to R58): what a command word selects is decided by its opcode field, and a reserved
opcode that comes to acceptance is refused. -/

namespace Sys2Proof

/-- Opcode 2 is DECODE, whatever its DATA field (R58). -/
theorem decodeCommand_of_opField_two (w : Half) (h : opField w = 0x02) : decodeCommand w = .ok .decode := by
  simp [decodeCommand, h]

/-- Opcode 3 is CLEAR, whatever its DATA field (R58). -/
theorem decodeCommand_of_opField_three (w : Half) (h : opField w = 0x03) : decodeCommand w = .ok .clear := by
  simp [decodeCommand, h]

/-- An opcode that is not 1, 2 or 3 selects no command (R57). -/
theorem decodeCommand_of_reserved (w : Half) (h1 : opField w ≠ 0x01) (h2 : opField w ≠ 0x02)
    (h3 : opField w ≠ 0x03) : decodeCommand w = .error (.reservedOpcode w) := by
  rw [decodeCommand, if_neg h1, if_neg h2, if_neg h3]

/-- Settles O3: the opcode field of a command word is its opcode, whatever the DATA byte beside it. -/
theorem dataFieldIgnoredByDecodeAndClear : Obligations.DataFieldIgnoredByDecodeAndClear := by
  refine ⟨fun data => ⟨?_, ?_⟩, Laws.OpcodeField.decode, Laws.OpcodeField.clear⟩
  · exact decodeCommand_of_opField_two _ (opField_commandWord 0x02 data)
  · exact decodeCommand_of_opField_three _ (opField_commandWord 0x03 data)

end Sys2Proof

namespace Sys2Proof.Machine

/-- With BUSY 0 nothing holds the request at the head of the schedule: it comes to acceptance (R126). -/
theorem nextAction_of_ready_request (s : State) (r : Request) (es : List Event) (hb : s.busy = false)
    (hs : s.schedule = .request r :: es) : nextAction s = acceptRequest r := by
  simp [nextAction, hs, hb]

/-- A command word that decodes to nothing is refused at acceptance (R57). -/
theorem acceptRequest_of_reserved (w : Half) (h : decodeCommand w = .error (.reservedOpcode w)) :
    acceptRequest (.command w) = .refuse w := by
  simp [acceptRequest, decodeRequest, h]

/-- The step of a refused word is the refusal that names it (R57). -/
theorem step_of_refuse (s : State) (w : Half) (h : nextAction s = .refuse w) :
    step s = .refused (.reservedCommand w) := by
  rw [step, h]

/-- Settles O38: the three masks say that the opcode is reserved, and with BUSY 0 the word is accepted at once. -/
theorem reservedCommandWordIsRefused : Obligations.ReservedCommandWordIsRefused := by
  intro s w es hb hs h1 h2 h3
  have hdecode : decodeCommand w = .error (.reservedOpcode w) :=
    decodeCommand_of_reserved w (fun e => h1 ((opField_eq_iff w 0x01).mp e))
      (fun e => h2 ((opField_eq_iff w 0x02).mp e)) (fun e => h3 ((opField_eq_iff w 0x03).mp e))
  have haction : nextAction s = .refuse w :=
    (nextAction_of_ready_request s _ es hb hs).trans (acceptRequest_of_reserved w hdecode)
  exact step_of_refuse s w haction

end Sys2Proof.Machine

/-! SUPPORT. The commands PUSH and CLEAR at acceptance (R63, R64, R69): what each leaves of the input side, and that
neither touches the result side or the host's side. -/

namespace Sys2Proof.Machine

/-! ### Acceptance with BUSY 0 -/

theorem exec_push_of_ready (b : Byte) (s : State) (hb : s.busy = false) :
    exec (.push b) s = .next (s.pushByte b) := whenReady_of_ready s _ hb

theorem exec_decode_of_ready (s : State) (hb : s.busy = false) : exec .decode s = .next s.raiseBusy :=
  whenReady_of_ready s _ hb

theorem exec_clear_of_ready (s : State) (hb : s.busy = false) : exec .clear s = .next s.emptyInput :=
  whenReady_of_ready s _ hb

/-! ### Frames -/

/-- PUSH stores a byte below the capacity and sets IOVF at it. -/
theorem pushByte_cases (s : State) (b : Byte) :
    (s.ilen.toNat < ibufCap ∧ s.pushByte b = s.storeInput b) ∨
      (ibufCap ≤ s.ilen.toNat ∧ s.pushByte b = s.setOverflow) :=
  (Nat.lt_or_ge s.ilen.toNat ibufCap).imp (fun h => ⟨h, pushByte_of_lt s b h⟩)
    fun h => ⟨h, pushByte_of_full s b h⟩

@[simp] theorem pushByte_busy (s : State) (b : Byte) : (s.pushByte b).busy = s.busy := by
  obtain ⟨-, e⟩ | ⟨-, e⟩ := pushByte_cases s b <;> rw [e]
  · exact s.storeInput_busy b
  · exact s.setOverflow_busy

theorem sameResult_pushByte (s : State) (b : Byte) : SameResult s (s.pushByte b) := by
  obtain ⟨-, e⟩ | ⟨-, e⟩ := pushByte_cases s b <;> rw [e] <;> exact ⟨rfl, rfl, rfl, rfl, fun _ => rfl⟩

theorem sameHost_pushByte (s : State) (b : Byte) : SameHost s (s.pushByte b) := by
  obtain ⟨-, e⟩ | ⟨-, e⟩ := pushByte_cases s b <;> rw [e] <;> exact ⟨rfl, rfl⟩

/-- IOVF is sticky: no PUSH clears it (R64). -/
theorem pushByte_keeps_overflow (s : State) (b : Byte) (h : s.iovf = true) : (s.pushByte b).iovf = true := by
  obtain ⟨-, e⟩ | ⟨-, e⟩ := pushByte_cases s b <;> rw [e]
  · exact h
  · exact s.setOverflow_iovf

theorem sameResult_emptyInput (s : State) : SameResult s s.emptyInput := ⟨rfl, rfl, rfl, rfl, fun _ => rfl⟩

theorem sameHost_emptyInput (s : State) : SameHost s s.emptyInput := ⟨rfl, rfl⟩

/-! ### The obligations on one command -/

/-- Settles O7: CLEAR empties the input side, and BUSY holds it. -/
theorem clearEmptiesTheInput : Obligations.ClearEmptiesTheInput := by
  refine ⟨Laws.OpcodeField.clear, fun s hb => ?_, fun s hb => whenReady_of_busy s _ hb⟩
  exact ⟨s.emptyInput, exec_clear_of_ready s hb, rfl, rfl, fun _ => rfl, hb, sameResult_emptyInput s,
    sameHost_emptyInput s⟩

/-- Settles O5: below the capacity the byte is stored at index ILEN, at it IOVF is set. -/
theorem pushAppendsOneByte : Obligations.PushAppendsOneByte := by
  intro b s hb hwf
  refine ⟨Laws.OpcodeField.push b, s.pushByte b, exec_push_of_ready b s hb, ?_, (pushByte_busy s b).trans hb,
    sameResult_pushByte s b, sameHost_pushByte s b⟩
  split
  · next hlt =>
    have hread := Memory.read_write s.ibuf s.ilen.toNat b (h := hwf)
    rw [pushByte_of_lt s b hlt]
    exact ⟨(hread _).trans (if_pos rfl), fun a ha => (hread a).trans (if_neg ha), storeInput_ilen_toNat s b hlt, rfl⟩
  · next hfull =>
    rw [pushByte_of_full s b (Nat.not_lt.mp hfull)]
    exact ⟨rfl, rfl, fun _ => rfl⟩

end Sys2Proof.Machine

/-! SUPPORT. Where a command comes from: the word at the head of the schedule, accepted with BUSY 0. -/

namespace Sys2Proof

/-- Only opcode 3 is CLEAR (R56). -/
theorem opField_of_decodeCommand_clear (w : Half) (h : decodeCommand w = .ok .clear) : opField w = 0x03 := by
  unfold decodeCommand at h
  split at h
  · cases h
  · split at h
    · cases h
    · split at h
      · assumption
      · cases h

end Sys2Proof

namespace Sys2Proof.Machine

/-- Every instruction but RD_PARAM is a command: the block takes it from a command word, and only while BUSY is 0
(R126). -/
theorem ready_of_nextAction_run (s : State) (i : Instr) (h : nextAction s = .run i) (hi : ∀ k, i ≠ .rdParam k) :
    s.busy = false ∧ ∃ w es, s.schedule = .request (.command w) :: es ∧ decodeCommand w = .ok i := by
  obtain ⟨r, es, hs, hd, hready⟩ := head_of_nextAction_run s i h
  cases r with
  | command w => exact ⟨hready.resolve_right nofun, w, es, hs, hd⟩
  | readIndex k => cases hd; exact absurd rfl (hi k)

end Sys2Proof.Machine

/-! SUPPORT. The parser (R77): over a source whose bytes below its length can be read, it gives the declared result of
the five checks. -/

namespace Sys2Proof.Machine

/-- The value of a 16-bit field is that of its two bytes, little-endian (R32). -/
theorem toNat_two_bytes (lo hi : Byte) : (hi ++ lo : Half).toNat = lo.toNat + 256 * hi.toNat := by
  have hlo := lo.isLt
  have hhi := hi.isLt
  rw [← ofNat_two_bytes, BitVec.toNat_ofNat]
  omega

/-- Check 2 passes unless one of the three bytes is wrong (R79). -/
theorem preambleOk_eq (read : Nat → Except Fault Byte) (f : Nat → Byte) (h : ∀ i, i < 3 → read i = .ok (f i)) :
    preambleOk read = .ok (decide ¬(f 0 ≠ 0xAA ∨ f 1 ≠ 0xAA ∨ f 2 ≠ 0xAA)) := by
  simp [preambleOk_ok read f h, preambleByte, beq_eq_decide, Bool.and_assoc]

/-- Check 5 passes unless it is enabled and the two values differ (R82, R93). -/
theorem checksumOk_eq (p : Params) (read : Nat → Except Fault Byte) (f : Nat → Byte) (pl : Nat)
    (h : ∀ i, i < pl + 8 → read i = .ok (f i)) :
    checksumOk p read pl = .ok (decide ¬(p.checksumEnable = true ∧
      (f (pl + 7) ++ f (pl + 6) : Half) ≠ p.checksum16 ((List.range (pl + 6)).map f))) := by
  cases hp : p.checksumEnable with
  | false => simp [checksumOk_disabled p read pl hp]
  | true => simp [checksumOk_enabled p read f pl hp h, ofNat_two_bytes, beq_eq_decide]

theorem except_ok_bind {α β : Type} (x : α) (k : α → Except Fault β) : (Except.ok x >>= k) = k x := rfl

/-- The parser reports the first failing check, else the message (R77, R83, R85). -/
theorem decodeFrame_eq_expectedResult (p : Params) (len : Nat) (overflow : Bool) (read : Nat → Except Fault Byte)
    (f : Nat → Byte) (h : ∀ i, i < len → read i = .ok (f i)) :
    decodeFrame p len overflow read = .ok (expectedResult p len overflow f) := by
  rw [decodeFrame, expectedResult, minFrameLen, minPlen, overhead]
  by_cases h1 : len < 10
  · simp only [if_pos h1]
  have hpre := preambleOk_eq read f fun i hi => h i (by omega)
  have hpl : memRead read offPlen 2 = .ok (f 5 ++ f 4 : Half).toNat :=
    (memRead_two read 4 (f 4) (f 5) (h 4 (by omega)) (h 5 (by omega))).trans
      (congrArg Except.ok (toNat_two_bytes (f 4) (f 5)).symm)
  simp only [if_neg h1, hpre, hpl, except_ok_bind, decide_eq_true_eq, ite_not]
  generalize (f 5 ++ f 4 : Half).toNat = pl
  by_cases h2 : f 0 ≠ 0xAA ∨ f 1 ≠ 0xAA ∨ f 2 ≠ 0xAA
  · simp only [if_pos h2, pure, Except.pure]
  by_cases h3 : pl < 2
  · simp only [if_neg h2, if_pos h3, pure, Except.pure]
  by_cases h4 : overflow = true ∨ len ≠ pl + 8
  · simp only [if_neg h2, if_neg h3, if_pos h4, pure, Except.pure]
  have hread : ∀ i, i < pl + 8 → read i = .ok (f i) := fun i hi => h i (by omega)
  have hext := extract_ok read f pl (Nat.not_lt.mp h3) hread
  simp only [if_neg h2, if_neg h3, if_neg h4, checksumOk_eq p read f pl hread, hext, ofNat_two_bytes, except_ok_bind,
    decide_eq_true_eq, ite_not, apply_ite Except.ok, pure, Except.pure]

/-- The decode of the block's input is the declared result over IBUF (R77). -/
theorem decodeHW_eq_expectedResult (p : Params) (s : State) :
    decodeHW p s = .ok (expectedResult p s.ilen.toNat s.iovf s.ibuf.read) :=
  decodeFrame_eq_expectedResult p s.ilen.toNat s.iovf s.inputByte s.ibuf.read (inputByte_of_lt s)

end Sys2Proof.Machine

/-! SUPPORT. The sticky overflow flag (R64): what clears it, and what the decode reports under it. -/

namespace Sys2Proof.Machine

/-- Of the instructions only CLEAR clears IOVF. -/
theorem clear_of_exec_clears_overflow (i : Instr) (s t : State) (hs : s.iovf = true) (h : exec i s = .next t)
    (ht : t.iovf = false) : i = .clear := by
  obtain rfl | ⟨b, -, rfl⟩ | ⟨-, rfl⟩ | ⟨hi, -⟩ | ⟨k, -, rfl⟩ := exec_cases i s t h
  · exact nomatch hs.symm.trans ht
  · exact nomatch (pushByte_keeps_overflow s b hs).symm.trans ht
  · exact nomatch hs.symm.trans ht
  · exact hi
  · exact nomatch hs.symm.trans ht

/-- A step clears IOVF only as a DECODE completion, reset or an accepted CLEAR. -/
theorem step_clears_overflow_cases (s t : State) (hs : s.iovf = true) (h : step s = .next t)
    (ht : t.iovf = false) :
    nextAction s = .complete ∧ completeDecode s = .next t ∨ nextAction s = .reset ∨
      nextAction s = .run .clear := by
  obtain ⟨-, rfl⟩ | hc | ⟨-, rfl⟩ | ⟨hr, -⟩ | ⟨p, -, rfl⟩ | ⟨i, hi, he⟩ := step_cases s t h
  · exact nomatch hs.symm.trans ht
  · exact .inl hc
  · exact nomatch hs.symm.trans ht
  · exact .inr (.inl hr)
  · exact nomatch hs.symm.trans ht
  · obtain rfl := clear_of_exec_clears_overflow i s.takeEvent t hs he ht
    exact .inr (.inr hi)

/-- With IOVF 1 check 4 fails, so the outcome is that of the first failing check among 1 to 4 (R64, R81). -/
theorem expectedResult_of_overflow (p : Params) (len : Nat) (f : Nat → Byte) :
    ∃ o, expectedResult p len true f = .fail o ∧ o ≠ .checksumError ∧
      (o = .frameTooShort ↔ len < 10) ∧
      (o = .badPreamble ↔ 10 ≤ len ∧ ¬(f 0 = 0xAA ∧ f 1 = 0xAA ∧ f 2 = 0xAA)) ∧
      (o = .payloadTooSmall ↔ 10 ≤ len ∧ (f 0 = 0xAA ∧ f 1 = 0xAA ∧ f 2 = 0xAA) ∧
        (f 5 ++ f 4 : Half).toNat < 2) := by
  have hpre : (f 0 ≠ 0xAA ∨ f 1 ≠ 0xAA ∨ f 2 ≠ 0xAA) ↔ ¬(f 0 = 0xAA ∧ f 1 = 0xAA ∧ f 2 = 0xAA) := by
    rw [not_and_or, not_and_or]
  simp only [expectedResult, hpre, true_or, if_true]
  by_cases h1 : len < 10
  · exact ⟨.frameTooShort, if_pos h1, nofun, by simp [h1, Nat.not_le.mpr h1]⟩
  have hten : 10 ≤ len := Nat.not_lt.mp h1
  simp only [if_neg h1, hten, true_and]
  by_cases h2 : f 0 = 0xAA ∧ f 1 = 0xAA ∧ f 2 = 0xAA
  · simp only [h2, and_self, not_true, if_false, true_and]
    by_cases h3 : (f 5 ++ f 4 : Half).toNat < 2
    · exact ⟨.payloadTooSmall, if_pos h3, nofun, by simp [h1, h3]⟩
    · exact ⟨.lengthMismatch, if_neg h3, nofun, by simp [h1, h3]⟩
  · simp only [h2, not_false_iff, if_true, false_and]
    exact ⟨.badPreamble, rfl, nofun, by simp [h1]⟩

/-- Settles O6: PUSH at the capacity sets IOVF, the transitions that clear it are the three of R64, and under it
check 4 fails. -/
theorem pushOnAFullBufferOverflows : Obligations.PushOnAFullBufferOverflows := by
  refine ⟨fun b s hb hfull => ?_, fun b s t hs h => ?_, fun s t hs h ht => ?_, fun p s hs => ?_⟩
  · have hpush : s.pushByte b = s.setOverflow := pushByte_of_full s b hfull.ge
    exact ⟨s.setOverflow, hpush ▸ exec_push_of_ready b s hb, rfl, hfull, fun _ => rfl, hb,
      hpush ▸ sameResult_pushByte s b, hpush ▸ sameHost_pushByte s b⟩
  · by_contra ht
    exact nomatch clear_of_exec_clears_overflow (.push b) s t hs h (Bool.eq_false_of_not_eq_true ht)
  · obtain ⟨ha, hc⟩ | hr | hrun := step_clears_overflow_cases s t hs h ht
    · exact .inl ⟨busy_of_nextAction_complete s ha, hc⟩
    · exact .inr (.inl (head_of_nextAction_reset s hr))
    · obtain ⟨hb, w, es, hw, hd⟩ := ready_of_nextAction_run s .clear hrun nofun
      have hmask := (opField_eq_iff w 0x03).mp (opField_of_decodeCommand_clear w hd)
      exact .inr (.inr ⟨hb, w, es, hw, hmask⟩)
  · obtain ⟨o, ho, hfacts⟩ := expectedResult_of_overflow p s.ilen.toNat s.ibuf.read
    exact ⟨o, by rw [decodeHW_eq_expectedResult, hs, ho], hfacts⟩

end Sys2Proof.Machine

/-! SUPPORT. The bounded view of the virtual buffer (R66, R67): every transition takes a view to a view of what the
virtual buffer becomes. -/

namespace Sys2Proof.Machine

/-! ### The virtual buffer after one step -/

section
variable {v : List Byte} {s : State}

theorem virtualAfter_of_idle (h : nextAction s = .idle) : virtualAfter v s = v := by simp [virtualAfter, h]

theorem virtualAfter_of_complete (h : nextAction s = .complete) : virtualAfter v s = [] := by simp [virtualAfter, h]

theorem virtualAfter_of_endWait (h : nextAction s = .endWait) : virtualAfter v s = v := by simp [virtualAfter, h]

theorem virtualAfter_of_reset (h : nextAction s = .reset) : virtualAfter v s = [] := by simp [virtualAfter, h]

theorem virtualAfter_of_readPort {p : Port} (h : nextAction s = .readPort p) : virtualAfter v s = v := by
  simp [virtualAfter, h]

theorem virtualAfter_of_push {b : Byte} (h : nextAction s = .run (.push b)) (hb : s.busy = false) :
    virtualAfter v s = v ++ [b] := by simp [virtualAfter, h, hb]

theorem virtualAfter_of_clear (h : nextAction s = .run .clear) (hb : s.busy = false) : virtualAfter v s = [] := by
  simp [virtualAfter, h, hb]

theorem virtualAfter_of_decode (h : nextAction s = .run .decode) : virtualAfter v s = v := by simp [virtualAfter, h]

theorem virtualAfter_of_rdParam {k : Half} (h : nextAction s = .run (.rdParam k)) : virtualAfter v s = v := by
  simp [virtualAfter, h]

end

theorem virtualFor_succ_of_next (n : Nat) (v : List Byte) (s t : State) (h : step s = .next t) :
    virtualFor (n + 1) v s = virtualFor n (virtualAfter v s) t := by simp [virtualFor, h]

/-! ### The canonical form of IBUF -/

theorem pushByte_ibuf_wf (s : State) (b : Byte) (h : s.ibuf.wf) : (s.pushByte b).ibuf.wf := by
  obtain ⟨-, e⟩ | ⟨-, e⟩ := pushByte_cases s b <;> rw [e]
  · exact Memory.write_wf s.ibuf s.ilen.toNat b h
  · exact h

theorem exec_ibuf_wf (i : Instr) (s t : State) (hwf : s.ibuf.wf) (h : exec i s = .next t) : t.ibuf.wf := by
  obtain rfl | ⟨b, -, rfl⟩ | ⟨-, rfl⟩ | ⟨-, rfl⟩ | ⟨k, -, rfl⟩ := exec_cases i s t h
  · exact hwf
  · exact pushByte_ibuf_wf s b hwf
  · exact hwf
  · exact hwf
  · exact hwf

/-- A completion does not write IBUF. -/
theorem completeWith_ibuf (p : Params) (s t : State) (h : completeWith p s = .next t) : t.ibuf = s.ibuf := by
  obtain ⟨r, u, -, hu, rfl⟩ := completeWith_cases p s t h
  obtain ⟨o, -, rfl⟩ | ⟨c, st, params, -, -, rfl⟩ := writeBack_cases s u r hu
  · rfl
  · rfl

theorem step_keeps_ibuf_wf (s t : State) (hwf : s.ibuf.wf) (h : step s = .next t) : t.ibuf.wf := by
  obtain ⟨-, rfl⟩ | ⟨-, hc⟩ | ⟨-, rfl⟩ | ⟨-, rfl⟩ | ⟨p, -, rfl⟩ | ⟨i, -, he⟩ := step_cases s t h
  · exact hwf
  · exact completeWith_ibuf Params.device s t hc ▸ hwf
  · exact hwf
  · exact hwf
  · exact hwf
  · exact exec_ibuf_wf i s.takeEvent t hwf he

/-! ### Views -/

namespace ViewOf

variable {v : List Byte} {s t : State}

/-- An empty input side is the view of the empty virtual buffer. -/
theorem of_empty (hilen : s.ilen = 0) (hiovf : s.iovf = false) : ViewOf [] s where
  ilen_eq := by rw [hilen]; rfl
  byte_eq i hi := by
    rw [hilen] at hi
    exact absurd hi (Nat.not_lt_zero i)
  iovf_iff := by simp [hiovf]

theorem takeEvent (h : ViewOf v s) : ViewOf v s.takeEvent := { h with }

theorem recordRead (h : ViewOf v s) (r : HostRead) : ViewOf v (s.recordRead r) := { h with }

theorem raiseBusy (h : ViewOf v s) : ViewOf v s.raiseBusy := { h with }

/-- Below the capacity nothing has been dropped: the stored byte is the virtual buffer's next. -/
theorem storeInput (h : ViewOf v s) (hwf : s.ibuf.wf) (b : Byte) (hlt : s.ilen.toNat < ibufCap) :
    ViewOf (v ++ [b]) (s.storeInput b) := by
  have hmin := h.ilen_eq
  have hlen : v.length = s.ilen.toNat := by omega
  refine ⟨?_, fun i hi => ?_, ?_⟩
  · rw [storeInput_ilen_toNat s b hlt, List.length_append, List.length_singleton]
    omega
  · rw [storeInput_ilen_toNat s b hlt] at hi
    rw [State.storeInput_ibuf, Memory.read_write _ _ _ _ hwf]
    split
    · next he => rw [he, ← hlen, List.getElem?_concat_length]
    · next hne =>
      have hi' : i < s.ilen.toNat := by omega
      rw [List.getElem?_append_left (hlen ▸ hi'), h.byte_eq i hi']
  · rw [State.storeInput_iovf, h.iovf_iff, List.length_append, List.length_singleton]
    omega

/-- At the capacity the byte is dropped, and the virtual buffer is longer than the view. -/
theorem setOverflow (h : ViewOf v s) (b : Byte) (hfull : ibufCap ≤ s.ilen.toNat) :
    ViewOf (v ++ [b]) s.setOverflow := by
  have hmin := h.ilen_eq
  have hlen : (v ++ [b]).length = v.length + 1 := List.length_append
  refine ⟨?_, fun i hi => ?_, ?_⟩
  · rw [State.setOverflow_ilen, hlen]
    omega
  · rw [State.setOverflow_ilen] at hi
    rw [List.getElem?_append_left (by omega)]
    exact h.byte_eq i hi
  · rw [hlen]
    exact iff_of_true rfl (by omega)

theorem pushByte (h : ViewOf v s) (hwf : s.ibuf.wf) (b : Byte) : ViewOf (v ++ [b]) (s.pushByte b) := by
  obtain ⟨hlt, e⟩ | ⟨hfull, e⟩ := pushByte_cases s b <;> rw [e]
  · exact h.storeInput hwf b hlt
  · exact h.setOverflow b hfull

/-! Transitions. -/

/-- An instruction the block takes keeps the view. -/
theorem of_exec (h : ViewOf v s) (hwf : s.ibuf.wf) (i : Instr) (ha : nextAction s = .run i)
    (he : exec i s.takeEvent = .next t) : ViewOf (virtualAfter v s) t := by
  cases i with
  | push b =>
    obtain ⟨hb, -⟩ := ready_of_nextAction_run s _ ha nofun
    cases (exec_push_of_ready b s.takeEvent hb).symm.trans he
    exact virtualAfter_of_push ha hb ▸ h.takeEvent.pushByte hwf b
  | decode =>
    obtain ⟨hb, -⟩ := ready_of_nextAction_run s _ ha nofun
    cases (exec_decode_of_ready s.takeEvent hb).symm.trans he
    exact (virtualAfter_of_decode ha).symm ▸ h.takeEvent.raiseBusy
  | clear =>
    obtain ⟨hb, -⟩ := ready_of_nextAction_run s _ ha nofun
    cases (exec_clear_of_ready s.takeEvent hb).symm.trans he
    exact (virtualAfter_of_clear ha hb).symm ▸ of_empty rfl rfl
  | rdParam k =>
    cases he
    exact (virtualAfter_of_rdParam ha).symm ▸ h.takeEvent.recordRead _

/-- Every step keeps the view (R67). -/
theorem of_step (h : ViewOf v s) (hwf : s.ibuf.wf) (hst : step s = .next t) : ViewOf (virtualAfter v s) t := by
  obtain ⟨ha, rfl⟩ | ⟨ha, hc⟩ | ⟨ha, rfl⟩ | ⟨ha, rfl⟩ | ⟨p, ha, rfl⟩ | ⟨i, ha, he⟩ := step_cases s t hst
  · rwa [virtualAfter_of_idle ha]
  · rw [virtualAfter_of_complete ha]
    obtain ⟨r, u, -, -, rfl⟩ := completeWith_cases Params.device s t hc
    exact of_empty rfl rfl
  · rw [virtualAfter_of_endWait ha]
    exact h.takeEvent
  · rw [virtualAfter_of_reset ha]
    exact of_empty rfl rfl
  · rw [virtualAfter_of_readPort ha]
    exact h.takeEvent.recordRead _
  · exact h.of_exec hwf i ha he

/-- Every run keeps the view, of the virtual buffer that it builds. -/
theorem of_run (n : Nat) (h : ViewOf v s) (hwf : s.ibuf.wf) (hrun : runFor n s = .next t) :
    ViewOf (virtualFor n v s) t := by
  induction n generalizing v s with
  | zero =>
    cases hrun
    exact h
  | succ n ih =>
    obtain ⟨u, hst, hu⟩ := runFor_succ_cases n s t hrun
    rw [virtualFor_succ_of_next n v s u hst]
    exact ih (h.of_step hwf hst) (step_keeps_ibuf_wf s u hwf hst) hu

end ViewOf

/-- Settles O25: after reset the input side is the view of the empty virtual buffer, and every run keeps the view. -/
theorem inputIsTheBoundedViewOfWhatWasPushed : Obligations.InputIsTheBoundedViewOfWhatWasPushed := by
  intro es n t s v hrun
  have hview : ViewOf [] s := .of_empty rfl rfl
  obtain ⟨hilen, hbyte, hiovf⟩ := hview.of_run n ⟨.nil, nofun⟩ hrun
  exact ⟨hilen, hbyte, hiovf⟩

end Sys2Proof.Machine

/-! SUPPORT. The declared result of the five checks: the document's decoder gives it too (R77), what it depends on, and
how many parameters it can hold. -/

namespace Sys2Proof.Machine

/-- The byte at index `i` of a sequence; 0 at or above its length, where no decoder reads. -/
def byteAt (v : List Byte) (i : Nat) : Byte := (v[i]?).getD 0

theorem byteAt_of_getElem? {v : List Byte} {i : Nat} {b : Byte} (h : v[i]? = some b) : byteAt v i = b := by
  rw [byteAt, h, Option.getD_some]

/-- Below its length every byte of a sequence can be read. -/
theorem seqByte_of_lt (v : List Byte) (i : Nat) (hi : i < v.length) : seqByte v i = .ok (byteAt v i) := by
  have hget := List.getElem?_eq_getElem hi
  rw [seqByte_of_getElem? v i v[i] hget, byteAt_of_getElem? hget]

/-- The document's decode is the declared result over the byte sequence, with IOVF taken as 0 (R77). -/
theorem decodeFn_eq_expectedResult (p : Params) (v : List Byte) :
    decodeFn p v = .ok (expectedResult p v.length false (byteAt v)) :=
  decodeFrame_eq_expectedResult p v.length false (seqByte v) (byteAt v) (seqByte_of_lt v)

/-- Settles O11: both decoders run the parser over a source whose bytes below its length can be read. -/
theorem parserReportsTheFirstFailure : Obligations.ParserReportsTheFirstFailure :=
  ⟨decodeHW_eq_expectedResult, decodeFn_eq_expectedResult⟩

/-- Fewer than 10 bytes fail check 1 (R78). -/
theorem expectedResult_of_short (p : Params) (len : Nat) (overflow : Bool) (f : Nat → Byte) (h : len < 10) :
    expectedResult p len overflow f = .fail .frameTooShort := if_pos h

/-- The declared result depends on the length and the overflow flag only through checks 1 and 4, and on the bytes below
the length. -/
theorem expectedResult_congr (p : Params) (len len' : Nat) (overflow overflow' : Bool) (f g : Nat → Byte)
    (hshort : len < 10 ↔ len' < 10)
    (hlength : ∀ pl : Half, (overflow = true ∨ len ≠ pl.toNat + 8) ↔ (overflow' = true ∨ len' ≠ pl.toNat + 8))
    (hbytes : ∀ i, i < len → f i = g i) : expectedResult p len overflow f = expectedResult p len' overflow' g := by
  by_cases h1 : len < 10
  · rw [expectedResult_of_short p len overflow f h1, expectedResult_of_short p len' overflow' g (hshort.mp h1)]
  have header : ∀ i, i < 10 → f i = g i := fun i hi => hbytes i (by omega)
  simp only [expectedResult, ← hshort, if_neg h1, ← hlength, header 0, header 1, header 2, header 3, header 4,
    header 5, header 6, header 7, Nat.reduceLT]
  generalize (g 5 ++ g 4 : Half) = pl
  by_cases h4 : overflow = true ∨ len ≠ pl.toNat + 8
  · simp only [if_pos h4]
  have below : ∀ i, i < pl.toNat + 8 → f i = g i := fun i hi => hbytes i (by omega)
  have hcovered : (List.range (pl.toNat + 6)).map f = (List.range (pl.toNat + 6)).map g :=
    List.map_congr_left fun i hi => below i (by have := List.mem_range.mp hi; omega)
  have hparams : (List.range (pl.toNat - 2)).map (fun k => f (8 + k)) =
      (List.range (pl.toNat - 2)).map fun k => g (8 + k) :=
    List.map_congr_left fun k hk => below (8 + k) (by have := List.mem_range.mp hk; omega)
  rw [hcovered, hparams, below (pl.toNat + 6) (by omega), below (pl.toNat + 7) (by omega)]

/-- A message has `PL - 2` parameters, and PL has 16 bits (R83, R95). -/
theorem length_le_of_expectedResult_ok (p : Params) (len : Nat) (overflow : Bool) (f : Nat → Byte) (c : Byte)
    (st : Half) (params : List Byte) (h : expectedResult p len overflow f = .ok c st params) :
    params.length ≤ 65533 := by
  have hpl := (f 5 ++ f 4 : Half).isLt
  simp only [expectedResult] at h
  split_ifs at h
  obtain ⟨-, -, rfl⟩ := FrameResult.ok.inj h
  rw [List.length_map, List.length_range]
  omega

/-- Settles O26: below the capacity the view is the virtual buffer; above it check 4 fails on both, because no PL
asks for more bytes than the buffer holds. -/
theorem boundedBufferIsExact : Obligations.BoundedBufferIsExact := by
  intro p v s h
  have hmin : s.ilen.toNat = min v.length 65543 := h.ilen_eq
  have hovf : s.iovf = true ↔ 65543 < v.length := h.iovf_iff
  rw [decodeHW_eq_expectedResult, decodeFn_eq_expectedResult]
  refine congrArg Except.ok (expectedResult_congr p _ _ _ _ _ _ (by omega) (fun pl => ?_) fun i hi => ?_)
  · have hpl := pl.isLt
    rw [hovf, hmin]
    simp only [Bool.false_eq_true, false_or]
    omega
  · exact (byteAt_of_getElem? (h.byte_eq i hi)).symm

end Sys2Proof.Machine

/-! SUPPORT. The frame of a message (R45) under the five checks: it passes the first four, and check 5 compares its
Checksum field with the checksum of its body. -/

namespace Sys2Proof.Machine

/-- The bytes of a 16-bit value, joined again. -/
theorem append_ofNat_bytes (v : Nat) : (BitVec.ofNat 8 (v / 256) ++ BitVec.ofNat 8 v : Half) = BitVec.ofNat 16 v := by
  apply BitVec.eq_of_toNat_eq
  rw [toNat_two_bytes, BitVec.toNat_ofNat, BitVec.toNat_ofNat, BitVec.toNat_ofNat]
  omega

theorem append_bytes_of_half (x : Half) : (BitVec.ofNat 8 (x.toNat / 256) ++ BitVec.ofNat 8 x.toNat : Half) = x := by
  rw [append_ofNat_bytes, BitVec.ofNat_toNat, BitVec.setWidth_eq]

/-- Reading `n` bytes of a sequence from offset `a`. -/
theorem map_range_byteAt (v : List Byte) (a n : Nat) (h : a + n ≤ v.length) :
    (List.range n).map (fun k => byteAt v (a + k)) = (v.drop a).take n := by
  apply List.ext_getElem
  · rw [List.length_map, List.length_range, List.length_take, List.length_drop]
    omega
  · intro k hk _
    rw [List.length_map, List.length_range] at hk
    rw [List.getElem_map, List.getElem_range, List.getElem_take, List.getElem_drop]
    exact byteAt_of_getElem? (List.getElem?_eq_getElem (by omega))

section
variable (c : Byte) (st : Half) (params : List Byte) (k : Half)

/-- The bytes of a frame, field by field (R45). -/
theorem frameBytes_eq :
    frameBytes c st params k =
      [0xAA, 0xAA, 0xAA, c, BitVec.ofNat 8 (params.length + 2), BitVec.ofNat 8 ((params.length + 2) / 256),
        BitVec.ofNat 8 st.toNat, BitVec.ofNat 8 (st.toNat / 256)] ++
      (params ++ [BitVec.ofNat 8 k.toNat, BitVec.ofNat 8 (k.toNat / 256)]) := by
  simp [frameBytes, frameBody, leBytes_two, preambleLen, preambleByte, payloadLength, minPlen, List.replicate_succ]

/-- The Payload Length field counts the parameters and the Status Code (R45). -/
theorem frameBytes_payloadLength :
    (byteAt (frameBytes c st params k) 5 ++ byteAt (frameBytes c st params k) 4 : Half) =
      BitVec.ofNat 16 (params.length + 2) := by
  rw [frameBytes_eq]
  exact append_ofNat_bytes _

theorem frameBytes_status :
    (byteAt (frameBytes c st params k) 7 ++ byteAt (frameBytes c st params k) 6 : Half) = st := by
  rw [frameBytes_eq]
  exact append_bytes_of_half st

/-- The Checksum field follows the body, low byte first (R45). -/
theorem byteAt_frameBytes_checksum (i : Nat) :
    byteAt (frameBytes c st params k) (params.length + 8 + i) = byteAt (leBytes 2 k.toNat) i := by
  rw [byteAt, byteAt, frameBytes, List.getElem?_append_right (by rw [frameBody_length]; omega), frameBody_length,
    Nat.add_sub_cancel_left]

theorem frameBytes_checksum :
    (byteAt (frameBytes c st params k) (params.length + 9) ++
      byteAt (frameBytes c st params k) (params.length + 8) : Half) = k := by
  rw [byteAt_frameBytes_checksum c st params k 0, byteAt_frameBytes_checksum c st params k 1]
  exact append_bytes_of_half k

/-- The parameters stand from offset 8 on (R45). -/
theorem frameBytes_params :
    (List.range params.length).map (fun i => byteAt (frameBytes c st params k) (8 + i)) = params := by
  rw [map_range_byteAt _ _ _ (by rw [frameBytes_length]; omega), frameBytes_eq, List.drop_left' (by rfl),
    List.take_left]

/-- The checksum covers the body (R48). -/
theorem frameBytes_covered :
    (List.range (params.length + 8)).map (byteAt (frameBytes c st params k)) = frameBody c st params := by
  have hrange := map_range_byteAt (frameBytes c st params k) 0 (params.length + 8) (by rw [frameBytes_length]; omega)
  simp only [Nat.zero_add, List.drop_zero] at hrange
  rw [hrange, frameBytes, List.take_left' (frameBody_length c st params)]

end

/-- Bytes whose preamble is right and whose Payload Length is legal and fits the length pass the first four checks: only
check 5 decides. -/
theorem expectedResult_of_layout (p : Params) (len : Nat) (f : Nat → Byte) (h0 : f 0 = 0xAA) (h1 : f 1 = 0xAA)
    (h2 : f 2 = 0xAA) (hmin : 2 ≤ (f 5 ++ f 4 : Half).toNat) (hlen : len = (f 5 ++ f 4 : Half).toNat + 8) :
    expectedResult p len false f =
      if p.checksumEnable = true ∧ (f (len - 1) ++ f (len - 2) : Half) ≠ p.checksum16 ((List.range (len - 2)).map f)
      then .fail .checksumError
      else .ok (f 3) (f 7 ++ f 6) ((List.range (len - 10)).map fun k => f (8 + k)) := by
  have hcheck2 : ¬(f 0 ≠ 0xAA ∨ f 1 ≠ 0xAA ∨ f 2 ≠ 0xAA) := by simp [h0, h1, h2]
  have hcheck4 : ¬(false = true ∨ len ≠ (f 5 ++ f 4 : Half).toNat + 8) := by simp [hlen]
  rw [expectedResult, if_neg (by omega), if_neg hcheck2, if_neg (by omega), if_neg hcheck4, hlen]
  rfl

/-- The decode of any frame that can be built: CHECKSUM_ERROR if the checksum is enforced and wrong, else its
message. -/
theorem decodeFn_frameBytes (p : Params) (c : Byte) (st k : Half) (params : List Byte) (hlen : params.length ≤ 65533) :
    decodeFn p (frameBytes c st params k) =
      .ok (if p.checksumEnable = true ∧ k ≠ p.checksum16 (frameBody c st params) then .fail .checksumError
        else .ok c st params) := by
  have hpl : (BitVec.ofNat 16 (params.length + 2)).toNat = params.length + 2 := by
    rw [BitVec.toNat_ofNat]
    omega
  have hlayout := expectedResult_of_layout p (params.length + 10) (byteAt (frameBytes c st params k))
    (by rw [frameBytes_eq]; rfl) (by rw [frameBytes_eq]; rfl) (by rw [frameBytes_eq]; rfl)
    (by rw [frameBytes_payloadLength, hpl]; omega) (by rw [frameBytes_payloadLength, hpl])
  have hcmd : byteAt (frameBytes c st params k) 3 = c := by rw [frameBytes_eq]; rfl
  simp only [Nat.add_sub_cancel, Nat.reduceSubDiff, frameBytes_checksum, frameBytes_covered, frameBytes_status,
    frameBytes_params, hcmd] at hlayout
  rw [decodeFn_eq_expectedResult, frameBytes_length, hlayout]

/-- Settles O20: the Checksum field of `frameBytesC` is right, so no check fails; and PL has 16 bits. -/
theorem frameRoundTrip : Obligations.FrameRoundTrip := by
  refine ⟨fun p c st params hlen => ?_, fun p v c st params h => ?_⟩
  · rw [frameBytesC, decodeFn_frameBytes p c st _ params hlen, if_neg fun h => h.2 rfl]
  · rw [decodeFn_eq_expectedResult] at h
    exact length_le_of_expectedResult_ok p _ _ _ c st params (Except.ok.inj h)

end Sys2Proof.Machine

/-! SUPPORT. The two transitions of DECODE: acceptance (R75), and the write-back that completion makes (R86, R87). -/

namespace Sys2Proof.Machine

theorem sameInput_raiseBusy (s : State) : SameInput s s.raiseBusy := ⟨rfl, rfl, fun _ => rfl⟩

theorem sameResult_raiseBusy (s : State) : SameResult s s.raiseBusy := ⟨rfl, rfl, rfl, rfl, fun _ => rfl⟩

theorem sameHost_raiseBusy (s : State) : SameHost s s.raiseBusy := ⟨rfl, rfl⟩

/-- An empty input fails check 1 (R75, R78). -/
theorem decodeHW_of_empty (p : Params) (s : State) (h : s.ilen = 0) : decodeHW p s = .ok (.fail .frameTooShort) := by
  have hlt : s.ilen.toNat < 10 := by
    rw [h]
    decide
  rw [decodeHW_eq_expectedResult, expectedResult_of_short p _ _ _ hlt]

/-- Settles O8: acceptance raises BUSY alone, an empty input is too short, and BUSY holds the command. -/
theorem decodeAcceptanceRaisesBusy : Obligations.DecodeAcceptanceRaisesBusy := by
  refine ⟨Laws.OpcodeField.decode, fun s hb => ?_, decodeHW_of_empty, fun s hb => whenReady_of_busy s _ hb⟩
  exact ⟨s.raiseBusy, exec_decode_of_ready s hb, rfl, sameInput_raiseBusy s, sameResult_raiseBusy s,
    sameHost_raiseBusy s⟩

/-- Completion of a decode that fails (R76, R86, R88). -/
theorem completeWith_of_fail (p : Params) (s : State) (o : Failure) (h : decodeHW p s = .ok (.fail o)) :
    completeWith p s = .next (s.writeFailure o).emptyInput.lowerBusy := by
  simp only [completeWith, h, writeBack]

/-- A decoded message fits PBUF (R84). -/
theorem length_le_of_decodeHW_ok (p : Params) (s : State) (c : Byte) (st : Half) (params : List Byte)
    (h : decodeHW p s = .ok (.ok c st params)) : params.length ≤ pbufCap := by
  rw [decodeHW_eq_expectedResult] at h
  exact length_le_of_expectedResult_ok p _ _ _ c st params (Except.ok.inj h)

/-- Completion of a decode that gives a message (R76, R87, R88). -/
theorem completeWith_of_ok (p : Params) (s : State) (c : Byte) (st : Half) (params : List Byte)
    (h : decodeHW p s = .ok (.ok c st params)) :
    completeWith p s = .next (s.writeMessage c st params).emptyInput.lowerBusy := by
  simp only [completeWith, h, writeBack, if_pos (length_le_of_decodeHW_ok p s c st params h)]

/-- Settles O12: a failure writes its code and clears the message ports; neither store is written. -/
theorem failureWriteBack : Obligations.FailureWriteBack := by
  intro p s o h
  have hvalid : (s.writeFailure o).msgValid = false := by
    simp [State.msgValid, o.code_ne.2]
  refine ⟨_, completeWith_of_fail p s o h, ?_, rfl, rfl, rfl, hvalid, fun _ => rfl, fun _ => rfl, rfl, rfl, rfl,
    rfl, rfl⟩
  cases o <;> rfl

/-- Settles O13: PBUF takes the parameters from index 0 on and keeps its other bytes. -/
theorem successWriteBack : Obligations.SuccessWriteBack := by
  intro p s c st params hwf h
  have hlen := length_le_of_decodeHW_ok p s c st params h
  have hcount := writeMessage_pcount_toNat s c st params hlen
  have hread := writeMessage_pbuf_read s c st params hwf
  refine ⟨_, completeWith_of_ok p s c st params h, rfl, rfl, rfl, hcount, hcount.trans_le hlen, fun k b hb => ?_,
    fun a ha => ?_, fun _ => rfl, message_writeMessage s c st params hwf hlen, rfl, rfl, rfl, rfl, rfl⟩
  · exact (hread k).trans (by rw [hb, Option.getD_some])
  · exact (hread a).trans (by rw [List.getElem?_eq_none ha, Option.getD_none])

end Sys2Proof.Machine

/-! SUPPORT. The result side between completions (R74): no instruction and no read of the host touches it. -/

namespace Sys2Proof.Machine

theorem sameResult_refl (s : State) : SameResult s s := ⟨rfl, rfl, rfl, rfl, fun _ => rfl⟩

theorem sameResult_recordRead (s : State) (v : HostRead) : SameResult s (s.recordRead v) :=
  ⟨rfl, rfl, rfl, rfl, fun _ => rfl⟩

theorem sameResult_takeEvent (s : State) : SameResult s s.takeEvent := ⟨rfl, rfl, rfl, rfl, fun _ => rfl⟩

/-- No instruction changes the result side at acceptance (R37). -/
theorem sameResult_exec (i : Instr) (s t : State) (h : exec i s = .next t) : SameResult s t := by
  obtain rfl | ⟨b, -, rfl⟩ | ⟨-, rfl⟩ | ⟨-, rfl⟩ | ⟨k, -, rfl⟩ := exec_cases i s t h
  · exact sameResult_refl t
  · exact sameResult_pushByte s b
  · exact sameResult_raiseBusy s
  · exact sameResult_emptyInput s
  · exact sameResult_recordRead s _

/-- Completion lowers BUSY (R76). -/
theorem completeWith_busy (p : Params) (s t : State) (h : completeWith p s = .next t) : t.busy = false := by
  obtain ⟨r, u, -, -, rfl⟩ := completeWith_cases p s t h
  exact State.lowerBusy_busy _

/-- Settles O33: of the six transitions only completion and reset write the result side. -/
theorem resultChangesOnlyAtCompletionOrReset : Obligations.ResultChangesOnlyAtCompletionOrReset := by
  intro s t h hne
  obtain ⟨-, rfl⟩ | ⟨ha, hc⟩ | ⟨-, rfl⟩ | ⟨ha, -⟩ | ⟨p, -, rfl⟩ | ⟨i, -, he⟩ := step_cases s t h
  · exact absurd (sameResult_refl t) hne
  · exact .inl ⟨busy_of_nextAction_complete s ha, completeWith_busy Params.device s t hc, hc⟩
  · exact absurd (sameResult_takeEvent s) hne
  · exact .inr (head_of_nextAction_reset s ha)
  · exact absurd (sameResult_recordRead s.takeEvent (s.portValue p)) hne
  · exact absurd (sameResult_exec i s.takeEvent t he) hne

end Sys2Proof.Machine

/-! SUPPORT. Decode and encode (R56 to R60): the opcode field of a command word decides its instruction both ways. -/

namespace Sys2Proof

/-- Opcode 1 is PUSH of the DATA field as it stands (R59). -/
theorem decodeCommand_of_opField_one (w : Half) (h : opField w = 0x01) :
    decodeCommand w = .ok (.push (dataField w)) := if_pos h

/-- All a command word can decode to: the three commands, each from its own opcode (R56). -/
theorem decodeCommand_cases (w : Half) (i : Instr) (h : decodeCommand w = .ok i) :
    (opField w = 0x01 ∧ i = .push (dataField w)) ∨ (opField w = 0x02 ∧ i = .decode) ∨
      (opField w = 0x03 ∧ i = .clear) := by
  unfold decodeCommand at h
  split at h
  · next h1 => exact .inl ⟨h1, (Except.ok.inj h).symm⟩
  · split at h
    · next h2 => exact .inr (.inl ⟨h2, (Except.ok.inj h).symm⟩)
    · split at h
      · next h3 => exact .inr (.inr ⟨h3, (Except.ok.inj h).symm⟩)
      · cases h

/-- The command words that decode are those with opcode 1, 2 or 3 (R57). -/
theorem decodeCommand_ok_iff (w : Half) :
    (∃ i, decodeCommand w = .ok i) ↔ opField w = 0x01 ∨ opField w = 0x02 ∨ opField w = 0x03 := by
  constructor
  · rintro ⟨i, h⟩
    exact (decodeCommand_cases w i h).imp And.left (Or.imp And.left And.left)
  · rintro (h | h | h)
    · exact ⟨_, decodeCommand_of_opField_one w h⟩
    · exact ⟨_, decodeCommand_of_opField_two w h⟩
    · exact ⟨_, decodeCommand_of_opField_three w h⟩

/-- The host may send the command words with opcode 1, 2 or 3 (R57, R132). -/
theorem wellFormed_command_iff (w : Half) :
    (Request.command w).wellFormed = true ↔ opField w = 0x01 ∨ opField w = 0x02 ∨ opField w = 0x03 := by
  simp [Request.wellFormed, ← BitVec.toNat_inj, opField_toNat, or_assoc]

/-- The requests that decode are the well-formed ones. -/
theorem wellFormed_iff_decodes (r : Request) : r.wellFormed = true ↔ ∃ i, decodeRequest r = .ok i := by
  cases r with
  | command w => exact (wellFormed_command_iff w).trans (decodeCommand_ok_iff w).symm
  | readIndex k => exact iff_of_true rfl ⟨.rdParam k, rfl⟩

/-- Decoding an instruction's encoding gives the instruction back. -/
theorem decodeRequest_encode (i : Instr) : decodeRequest (encode i) = .ok i := by
  cases i with
  | push b =>
    have hdecode := decodeCommand_of_opField_one (commandWord 0x01 b) (opField_commandWord 0x01 b)
    rwa [dataField_commandWord] at hdecode
  | decode => exact decodeCommand_of_opField_two _ (opField_commandWord 0x02 0)
  | clear => exact decodeCommand_of_opField_three _ (opField_commandWord 0x03 0)
  | rdParam k => rfl

/-- DECODE and CLEAR alone drop bits of their request (R58). -/
theorem encode_of_decodeRequest (r : Request) (i : Instr) (h : decodeRequest r = .ok i) (hdec : i ≠ .decode)
    (hclr : i ≠ .clear) : encode i = r := by
  cases r with
  | command w =>
    obtain ⟨hop, rfl⟩ | ⟨-, hi⟩ | ⟨-, hi⟩ := decodeCommand_cases w i h
    · rw [encode, ← hop, commandWord_fields]
    · exact absurd hi hdec
    · exact absurd hi hclr
  | readIndex k =>
    cases h
    rfl

/-- Settles O4: the encoding decodes to its instruction, so it is well formed; PUSH and RD_PARAM use every bit. -/
theorem decodeAndEncodeAgree : Obligations.DecodeAndEncodeAgree :=
  ⟨fun i _ => ⟨(wellFormed_iff_decodes _).mpr ⟨i, decodeRequest_encode i⟩, decodeRequest_encode i⟩,
    wellFormed_iff_decodes, encode_of_decodeRequest⟩

/-- Settles O2: mask 0xFF00 with a match is a condition on the opcode field. -/
theorem commandWordsFollowTheOpcodeMap : Obligations.CommandWordsFollowTheOpcodeMap := by
  intro w
  refine ⟨fun h => ?_, fun h => ?_, fun h => ?_, fun ⟨h1, h2, h3⟩ => ?_⟩
  · rw [decodeCommand_of_opField_one w ((opField_eq_iff w 0x01).mpr h), dataField_eq_setWidth]
  · exact decodeCommand_of_opField_two w ((opField_eq_iff w 0x02).mpr h)
  · exact decodeCommand_of_opField_three w ((opField_eq_iff w 0x03).mpr h)
  · exact decodeCommand_of_reserved w (fun e => h1 ((opField_eq_iff w 0x01).mp e))
      (fun e => h2 ((opField_eq_iff w 0x02).mp e)) (fun e => h3 ((opField_eq_iff w 0x03).mp e))

/-- Settles O1: the twelve words are evaluated. -/
theorem tabledCommandWordsDecode : Obligations.TabledCommandWordsDecode := by
  unfold Obligations.TabledCommandWordsDecode
  decide

end Sys2Proof

/-! SUPPORT. The step by what stands at the head of the host's schedule (R123, R126, R132). -/

namespace Sys2Proof.Machine

/-! ### The next action -/

section
variable {s : State} {es : List Event}

theorem nextAction_of_ended (hb : s.busy = false) (hs : s.schedule = []) : nextAction s = .idle := by
  simp [nextAction, hs, hb]

theorem nextAction_of_busy_nil (hb : s.busy = true) (hs : s.schedule = []) : nextAction s = .complete := by
  simp [nextAction, hs, hb]

theorem nextAction_of_ready_wait (hb : s.busy = false) (hs : s.schedule = .wait :: es) : nextAction s = .endWait := by
  simp [nextAction, hs, hb]

theorem nextAction_of_busy_wait (hb : s.busy = true) (hs : s.schedule = .wait :: es) : nextAction s = .complete := by
  simp [nextAction, hs, hb]

theorem nextAction_of_reset (hs : s.schedule = .reset :: es) : nextAction s = .reset := by simp [nextAction, hs]

theorem nextAction_of_readPort {p : Port} (hs : s.schedule = .readPort p :: es) : nextAction s = .readPort p := by
  simp [nextAction, hs]

theorem nextAction_of_busy_command {w : Half} (hb : s.busy = true)
    (hs : s.schedule = .request (.command w) :: es) : nextAction s = .complete := by
  simp [nextAction, hs, hb, heldWhileBusy]

theorem acceptRequest_of_decodes {r : Request} {i : Instr} (h : decodeRequest r = .ok i) :
    acceptRequest r = .run i := by
  simp [acceptRequest, h]

/-- BUSY does not hold a read (R97). -/
theorem nextAction_of_readIndex {k : Half} (hs : s.schedule = .request (.readIndex k) :: es) :
    nextAction s = .run (.rdParam k) := by
  have haccept : acceptRequest (.readIndex k) = .run (.rdParam k) := acceptRequest_of_decodes rfl
  simp [nextAction, hs, heldWhileBusy, haccept]

/-- With BUSY 0 a request that decodes is taken (R126). -/
theorem nextAction_of_ready_decodes {r : Request} {i : Instr} (hb : s.busy = false)
    (hs : s.schedule = .request r :: es) (hd : decodeRequest r = .ok i) : nextAction s = .run i :=
  (nextAction_of_ready_request s r es hb hs).trans (acceptRequest_of_decodes hd)

end

/-! ### The step of each action -/

section
variable {s : State}

theorem step_of_idle (h : nextAction s = .idle) : step s = .next s := by rw [step, h]

theorem step_of_complete (h : nextAction s = .complete) : step s = completeDecode s := by rw [step, h]

theorem step_of_endWait (h : nextAction s = .endWait) : step s = .next s.takeEvent := by rw [step, h]

theorem step_of_reset (h : nextAction s = .reset) : step s = .next s.takeEvent.resetInput := by
  rw [step, h, afterReset]

theorem step_of_readPort {p : Port} (h : nextAction s = .readPort p) :
    step s = .next (s.takeEvent.recordRead (s.portValue p)) := by simp only [step, h, afterPortRead]

theorem step_of_run {i : Instr} (h : nextAction s = .run i) : step s = exec i s.takeEvent := by rw [step, h]

end

theorem takeEvent_of_schedule {s : State} {e : Event} {es : List Event} (hs : s.schedule = e :: es) :
    s.takeEvent = { s with schedule := es } := by
  rw [State.takeEvent, hs, List.tail_cons]

theorem takeEvent_schedule_of_cons {s : State} {e : Event} {es : List Event} (hs : s.schedule = e :: es) :
    s.takeEvent.schedule = es := by
  rw [State.takeEvent_schedule, hs, List.tail_cons]

/-! ### Progress -/

/-- A completion always answers a next state, with the input released and BUSY 0; it leaves the host's side (R76,
R88). -/
theorem completeWith_next (p : Params) (s : State) :
    ∃ t, completeWith p s = .next t ∧ t.busy = false ∧ t.ilen = 0 ∧ t.iovf = false ∧ SameHost s t := by
  obtain ⟨r, hr⟩ : ∃ r, decodeHW p s = .ok r := ⟨_, decodeHW_eq_expectedResult p s⟩
  cases r with
  | fail o => exact ⟨_, completeWith_of_fail p s o hr, rfl, rfl, rfl, rfl, rfl⟩
  | ok c st params => exact ⟨_, completeWith_of_ok p s c st params hr, rfl, rfl, rfl, rfl, rfl⟩

/-- The step that completes a DECODE in flight (R123). -/
theorem step_completes {s : State} (h : nextAction s = .complete) :
    ∃ t, step s = .next t ∧ completeDecode s = .next t ∧ t.busy = false ∧ t.ilen = 0 ∧ t.iovf = false ∧
      SameHost s t := by
  obtain ⟨t, ht, hrest⟩ := completeWith_next Params.device s
  exact ⟨t, (step_of_complete h).trans ht, ht, hrest⟩

/-- A completion leaves the host's side. -/
theorem sameHost_completeWith (p : Params) (s t : State) (h : completeWith p s = .next t) : SameHost s t := by
  obtain ⟨u, hu, -, -, -, hhost⟩ := completeWith_next p s
  cases hu.symm.trans h
  exact hhost

theorem whenReady_next (s accepted : State) : ∃ t, whenReady s accepted = .next t := by
  cases hb : s.busy with
  | false => exact ⟨_, whenReady_of_ready s accepted hb⟩
  | true => exact ⟨_, whenReady_of_busy s accepted hb⟩

/-- No instruction faults or is refused (R52). -/
theorem exec_next (i : Instr) (s : State) : ∃ t, exec i s = .next t := by
  cases i with
  | push b => exact whenReady_next s (s.pushByte b)
  | decode => exact whenReady_next s s.raiseBusy
  | clear => exact whenReady_next s s.emptyInput
  | rdParam k => exact ⟨_, rfl⟩

/-- Every step answers a next state, except that of a reserved command word at acceptance (R52, R57). -/
theorem step_next_or_refuse (s : State) : (∃ t, step s = .next t) ∨ ∃ w, nextAction s = .refuse w := by
  cases ha : nextAction s with
  | idle => exact .inl ⟨_, step_of_idle ha⟩
  | complete =>
    obtain ⟨t, ht, -⟩ := step_completes ha
    exact .inl ⟨t, ht⟩
  | endWait => exact .inl ⟨_, step_of_endWait ha⟩
  | reset => exact .inl ⟨_, step_of_reset ha⟩
  | readPort p => exact .inl ⟨_, step_of_readPort ha⟩
  | run i =>
    obtain ⟨t, ht⟩ := exec_next i s.takeEvent
    exact .inl ⟨t, (step_of_run ha).trans ht⟩
  | refuse w => exact .inr ⟨w, rfl⟩

/-- A refusal comes from a word that decodes to nothing. -/
theorem head_of_nextAction_refuse (s : State) (w : Half) (h : nextAction s = .refuse w) :
    ∃ r es, s.schedule = .request r :: es ∧ ¬ ∃ i, decodeRequest r = .ok i := by
  unfold nextAction at h
  split at h
  · split at h <;> cases h
  · split at h <;> cases h
  · cases h
  · cases h
  · next r es hs =>
    split at h
    · cases h
    · refine ⟨r, es, hs, fun ⟨i, hd⟩ => ?_⟩
      rw [acceptRequest_of_decodes hd] at h
      cases h

/-! ### What is left of the schedule -/

theorem exec_schedule (i : Instr) (s t : State) (h : exec i s = .next t) : t.schedule = s.schedule := by
  obtain rfl | ⟨b, -, rfl⟩ | ⟨-, rfl⟩ | ⟨-, rfl⟩ | ⟨k, -, rfl⟩ := exec_cases i s t h
  · rfl
  · exact (sameHost_pushByte s b).1
  · rfl
  · rfl
  · rfl

/-- A step takes at most the oldest event (R132). -/
theorem step_schedule (s t : State) (h : step s = .next t) :
    t.schedule = s.schedule ∨ t.schedule = s.schedule.tail := by
  obtain ⟨-, rfl⟩ | ⟨-, hc⟩ | ⟨-, rfl⟩ | ⟨-, rfl⟩ | ⟨p, -, rfl⟩ | ⟨i, -, he⟩ := step_cases s t h
  · exact .inl rfl
  · exact .inl (sameHost_completeWith Params.device s t hc).1
  · exact .inr rfl
  · exact .inr rfl
  · exact .inr rfl
  · exact .inr (exec_schedule i s.takeEvent t he)

end Sys2Proof.Machine

/-! SUPPORT. The host's duty (R57, R132): under it every run goes on. -/

namespace Sys2Proof.Machine

namespace State.HostDutiful

variable {s t : State}

theorem of_step (h : s.HostDutiful) (hst : step s = .next t) : t.HostDutiful := by
  intro e he
  obtain hsame | htail := step_schedule s t hst
  · exact h e (hsame ▸ he)
  · exact h e (List.mem_of_mem_tail (htail ▸ he))

/-- A host that keeps its duty offers no word that could be refused. -/
theorem step_next (h : s.HostDutiful) : ∃ t, step s = .next t ∧ t.HostDutiful := by
  obtain ⟨t, ht⟩ | ⟨w, hw⟩ := step_next_or_refuse s
  · exact ⟨t, ht, h.of_step ht⟩
  · obtain ⟨r, es, hs, hd⟩ := head_of_nextAction_refuse s w hw
    have hwf : r.wellFormed = true := h (.request r) (by rw [hs]; exact List.mem_cons_self)
    exact absurd ((wellFormed_iff_decodes r).mp hwf) hd

end State.HostDutiful

/-- Settles O42, by induction on the number of steps. -/
theorem dutifulHostNeverStopsTheMachine : Obligations.DutifulHostNeverStopsTheMachine := by
  intro s n h
  induction n generalizing s with
  | zero => exact ⟨s, runFor_zero s, h⟩
  | succ n ih =>
    obtain ⟨t, hst, ht⟩ := h.step_next
    rw [runFor_succ_of_next n s t hst]
    exact ih t ht

/-- Settles O14: the declared result answers for every input, and a step can only be refused. -/
theorem decodeNeverReadsOutsideTheInput : Obligations.DecodeNeverReadsOutsideTheInput := by
  refine ⟨fun p v => ⟨_, decodeFn_eq_expectedResult p v⟩, fun p v h => ?_,
    fun p s => ⟨_, decodeHW_eq_expectedResult p s⟩, fun s f hf => ?_⟩
  · rw [decodeFn_eq_expectedResult, expectedResult_of_short p _ _ _ h]
  · obtain ⟨t, ht⟩ | ⟨w, hw⟩ := step_next_or_refuse s
    · exact nomatch ht.symm.trans hf
    · exact nomatch (step_of_refuse s w hw).symm.trans hf

end Sys2Proof.Machine

/-! SUPPORT. BUSY (R18, R123, R126): what holds while it is 1, and what raises and lowers it. -/

namespace Sys2Proof.Machine

/-- Settles O10: BUSY holds the command, the decoder completes, and the same command is then accepted. -/
theorem commandsAreHeldWhileBusy : Obligations.CommandsAreHeldWhileBusy := by
  refine ⟨fun s hb => ?_, fun s w i es hb hs hd => ?_⟩
  · exact ⟨fun b => whenReady_of_busy s _ hb, whenReady_of_busy s _ hb, whenReady_of_busy s _ hb⟩
  · obtain ⟨t, hst, hc, hbusy, hilen, hiovf, hsched, -⟩ := step_completes (nextAction_of_busy_command hb hs)
    have haccept : nextAction t = .run i := nextAction_of_ready_decodes hbusy (hsched.trans hs) hd
    exact ⟨t, hst, hc, hbusy, hilen, hiovf, hsched, step_of_run haccept⟩

/-- Settles O41: WAIT ends on BUSY 0, and on BUSY 1 the decoder completes. -/
theorem waitEndsWhenBusyIsZero : Obligations.WaitEndsWhenBusyIsZero := by
  intro s es hs
  refine ⟨fun hb => ?_, fun hb => ?_⟩
  · rw [step_of_endWait (nextAction_of_ready_wait hb hs), takeEvent_of_schedule hs]
  · obtain ⟨t, hst, hc, hbusy, -, -, hsched, -⟩ := step_completes (nextAction_of_busy_wait hb hs)
    exact ⟨t, hst, hc, hbusy, hsched⟩

/-- Of the instructions only DECODE raises BUSY. -/
theorem decode_of_exec_raises_busy (i : Instr) (s t : State) (hs : s.busy = false) (h : exec i s = .next t)
    (ht : t.busy = true) : i = .decode := by
  obtain rfl | ⟨b, -, rfl⟩ | ⟨hi, -⟩ | ⟨-, rfl⟩ | ⟨k, -, rfl⟩ := exec_cases i s t h
  · exact nomatch hs.symm.trans ht
  · exact nomatch hs.symm.trans ((pushByte_busy s b).symm.trans ht)
  · exact hi
  · exact nomatch hs.symm.trans ht
  · exact nomatch hs.symm.trans ht

/-- No instruction lowers BUSY. -/
theorem exec_keeps_busy (i : Instr) (s t : State) (hs : s.busy = true) (h : exec i s = .next t) : t.busy = true := by
  obtain rfl | ⟨b, -, rfl⟩ | ⟨-, rfl⟩ | ⟨-, rfl⟩ | ⟨k, -, rfl⟩ := exec_cases i s t h
  · exact hs
  · exact (pushByte_busy s b).trans hs
  · rfl
  · exact hs
  · exact hs

/-- A step that raises BUSY takes a DECODE. -/
theorem nextAction_of_step_raises_busy (s t : State) (hs : s.busy = false) (h : step s = .next t)
    (ht : t.busy = true) : nextAction s = .run .decode := by
  obtain ⟨-, rfl⟩ | ⟨-, hc⟩ | ⟨-, rfl⟩ | ⟨-, rfl⟩ | ⟨p, -, rfl⟩ | ⟨i, hi, he⟩ := step_cases s t h
  · exact nomatch hs.symm.trans ht
  · exact nomatch (completeWith_busy Params.device s t hc).symm.trans ht
  · exact nomatch hs.symm.trans ht
  · exact nomatch ht
  · exact nomatch hs.symm.trans ht
  · exact decode_of_exec_raises_busy i s.takeEvent t hs he ht ▸ hi

/-- A step that lowers BUSY is a completion or a reset. -/
theorem step_lowers_busy_cases (s t : State) (hs : s.busy = true) (h : step s = .next t) (ht : t.busy = false) :
    completeDecode s = .next t ∨ nextAction s = .reset := by
  obtain ⟨-, rfl⟩ | ⟨-, hc⟩ | ⟨-, rfl⟩ | ⟨ha, -⟩ | ⟨p, -, rfl⟩ | ⟨i, -, he⟩ := step_cases s t h
  · exact nomatch hs.symm.trans ht
  · exact .inl hc
  · exact nomatch hs.symm.trans ht
  · exact .inr ha
  · exact nomatch hs.symm.trans ht
  · exact nomatch (exec_keeps_busy i s.takeEvent t hs he).symm.trans ht

/-- Settles O35: BUSY rises with a DECODE taken from a word of opcode 2. -/
theorem busyRisesAndFallsAsDecodeRuns : Obligations.BusyRisesAndFallsAsDecodeRuns := by
  intro s t h
  refine ⟨fun hs ht => ?_, fun hs ht => ?_⟩
  · obtain ⟨-, w, es, hw, hd⟩ :=
      ready_of_nextAction_run s .decode (nextAction_of_step_raises_busy s t hs h ht) nofun
    obtain ⟨-, hi⟩ | ⟨hop, -⟩ | ⟨-, hi⟩ := decodeCommand_cases w _ hd
    · cases hi
    · exact ⟨w, es, hw, (opField_eq_iff w 0x02).mp hop⟩
    · cases hi
  · exact (step_lowers_busy_cases s t hs h ht).imp_right (head_of_nextAction_reset s)

/-- While BUSY is 1 a step lowers it, or the host's oldest event was a read and is gone (R123, R126). -/
theorem step_of_busy (s : State) (hb : s.busy = true) :
    ∃ t, step s = .next t ∧ (t.busy = false ∨ (t.busy = true ∧ ∃ e, s.schedule = e :: t.schedule)) := by
  have of_complete (ha : nextAction s = .complete) :
      ∃ t, step s = .next t ∧ (t.busy = false ∨ (t.busy = true ∧ ∃ e, s.schedule = e :: t.schedule)) := by
    obtain ⟨t, hst, -, hbusy, -⟩ := step_completes ha
    exact ⟨t, hst, .inl hbusy⟩
  match hs : s.schedule with
  | [] => exact hs ▸ of_complete (nextAction_of_busy_nil hb hs)
  | .request (.command w) :: es => exact hs ▸ of_complete (nextAction_of_busy_command hb hs)
  | .wait :: es => exact hs ▸ of_complete (nextAction_of_busy_wait hb hs)
  | .reset :: es => exact ⟨_, step_of_reset (nextAction_of_reset hs), .inl rfl⟩
  | .request (.readIndex k) :: es =>
    refine ⟨_, step_of_run (nextAction_of_readIndex hs), .inr ⟨hb, .request (.readIndex k), ?_⟩⟩
    rw [State.recordRead_schedule, takeEvent_schedule_of_cons hs]
  | .readPort p :: es =>
    refine ⟨_, step_of_readPort (nextAction_of_readPort hs), .inr ⟨hb, .readPort p, ?_⟩⟩
    rw [State.recordRead_schedule, takeEvent_schedule_of_cons hs]

/-- Settles O43, by induction on the host's remaining events: only its listed reads come before the completion. -/
theorem acceptedDecodeCompletes : Obligations.AcceptedDecodeCompletes := by
  intro s hb
  induction hs : s.schedule generalizing s with
  | nil =>
    obtain ⟨t, hst, hbusy | ⟨-, e, he⟩⟩ := step_of_busy s hb
    · exact ⟨1, t, Nat.le_refl 1, runFor_succ_of_next 0 s t hst, hbusy⟩
    · exact nomatch hs.symm.trans he
  | cons e es ih =>
    obtain ⟨t, hst, hbusy | ⟨hbusy, e', he⟩⟩ := step_of_busy s hb
    · exact ⟨1, t, Nat.le_add_left 1 _, runFor_succ_of_next 0 s t hst, hbusy⟩
    · obtain ⟨-, hes⟩ := List.cons.inj (hs.symm.trans he)
      obtain ⟨n, u, hn, hrun, hu⟩ := ih t hbusy hes.symm
      exact ⟨n + 1, u, Nat.succ_le_succ hn, (runFor_succ_of_next n s t hst).trans hrun, hu⟩

/-- Settles O16: the first completion emptied the input, and an empty input is too short. -/
theorem decodeConsumesItsInput : Obligations.DecodeConsumesItsInput := by
  intro p s t h
  obtain ⟨u, hu, -, hilen, -⟩ := completeWith_next p s
  cases hu.symm.trans h
  exact ⟨_, completeWith_of_fail p _ _ (decodeHW_of_empty p _ hilen), rfl,
    message_writeFailure { t with busy := true } .frameTooShort⟩

end Sys2Proof.Machine

/-! SUPPORT. Which byte sequences are frames (R45, R52): a frame is a body and a Checksum field, and any bytes with the
preamble and the Payload Length of a body of their length are one. -/

namespace Sys2Proof.Machine

/-! ### Bytes -/

/-- The two bytes of a 16-bit field as bit ranges, low byte first (R32). -/
theorem leBytes_two_half (x : Half) : leBytes 2 x.toNat = [x.extractLsb' 0 8, x.extractLsb' 8 8] := by
  have hhigh : x.toNat / 256 = x.toNat >>> 8 := (Nat.shiftRight_eq_div_pow x.toNat 8).symm
  rw [leBytes_two, hhigh]
  rfl

/-- Any two bytes are those of a 16-bit field. -/
theorem leBytes_two_append (lo hi : Byte) : leBytes 2 (hi ++ lo : Half).toNat = [lo, hi] := by
  have hlow : BitVec.ofNat 8 (lo.toNat + 256 * hi.toNat) = lo :=
    BitVec.eq_of_toNat_eq (by rw [BitVec.toNat_ofNat]; omega)
  have hhigh : BitVec.ofNat 8 ((lo.toNat + 256 * hi.toNat) / 256) = hi :=
    BitVec.eq_of_toNat_eq (by rw [BitVec.toNat_ofNat]; omega)
  rw [leBytes_two, toNat_two_bytes, hlow, hhigh]

theorem byteAt_append_left (v w : List Byte) (i : Nat) (h : i < v.length) : byteAt (v ++ w) i = byteAt v i := by
  rw [byteAt, byteAt, List.getElem?_append_left h]

theorem exists_trailer (v : List Byte) (h : 2 ≤ v.length) : ∃ w lo hi, v = w ++ [lo, hi] := by
  obtain ⟨lo, hi, hdrop⟩ := List.length_eq_two.mp (show (v.drop (v.length - 2)).length = 2 by
    rw [List.length_drop]
    omega)
  exact ⟨v.take (v.length - 2), lo, hi, by rw [← hdrop, List.take_append_drop]⟩

/-! ### Frames -/

/-- The Payload Length field of a frame body counts the parameters and the Status Code (R45). -/
theorem frameBody_payloadLength (c : Byte) (st : Half) (params : List Byte) :
    (byteAt (frameBody c st params) 5 ++ byteAt (frameBody c st params) 4 : Half) =
      BitVec.ofNat 16 (params.length + 2) := append_ofNat_bytes _

theorem take_frameBytes (c : Byte) (st : Half) (params : List Byte) (k : Half) :
    (frameBytes c st params k).take (params.length + 8) = frameBody c st params :=
  List.take_left' (frameBody_length c st params)

/-- Any bytes with the preamble and the Payload Length of a frame body of their length are one (R45). -/
theorem exists_frameBody (w : List Byte) (hlen : 8 ≤ w.length)
    (hpre : byteAt w 0 = 0xAA ∧ byteAt w 1 = 0xAA ∧ byteAt w 2 = 0xAA)
    (hpl : w.length = (byteAt w 5 ++ byteAt w 4 : Half).toNat + 6) :
    ∃ c st params, w = frameBody c st params ∧ params.length ≤ 65533 := by
  match w, hlen with
  | b0 :: b1 :: b2 :: c :: l0 :: l1 :: s0 :: s1 :: params, _ =>
    have e0 : b0 = 0xAA := hpre.1
    have e1 : b1 = 0xAA := hpre.2.1
    have e2 : b2 = 0xAA := hpre.2.2
    have hpl' : params.length + 8 = (l1 ++ l0 : Half).toNat + 6 := hpl
    have hcount : params.length + 2 = (l1 ++ l0 : Half).toNat := by omega
    have hwidth := (l1 ++ l0 : Half).isLt
    refine ⟨c, s1 ++ s0, params, ?_, by omega⟩
    simp [frameBody, payloadLength, minPlen, preambleLen, preambleByte, List.replicate_succ, hcount,
      leBytes_two_append, e0, e1, e2]

/-- A message comes from bytes with the preamble whose Payload Length fits their number (R78, R79, R81). -/
theorem header_of_expectedResult_ok (p : Params) (len : Nat) (f : Nat → Byte) (c : Byte) (st : Half)
    (params : List Byte) (h : expectedResult p len false f = .ok c st params) :
    10 ≤ len ∧ (f 0 = 0xAA ∧ f 1 = 0xAA ∧ f 2 = 0xAA) ∧ len = (f 5 ++ f 4 : Half).toNat + 8 := by
  simp only [expectedResult] at h
  split_ifs at h with hshort hpre hmin hlen
  simp only [false_or, not_or, not_not] at hpre hlen
  exact ⟨Nat.not_lt.mp hshort, hpre, hlen⟩

/-- Only frames decode to messages (R52). -/
theorem exists_frameBytes_of_decodeFn_ok (p : Params) (v : List Byte) (c : Byte) (st : Half) (params : List Byte)
    (h : decodeFn p v = .ok (.ok c st params)) :
    ∃ c' st' params' k, v = frameBytes c' st' params' k ∧ params'.length ≤ 65533 := by
  rw [decodeFn_eq_expectedResult] at h
  obtain ⟨hten, hpre, hlen⟩ := header_of_expectedResult_ok p _ _ c st params (Except.ok.inj h)
  obtain ⟨w, lo, hi, rfl⟩ := exists_trailer v (by omega)
  have hw : (w ++ [lo, hi]).length = w.length + 2 := List.length_append
  have hbyte : ∀ i, i < 8 → byteAt (w ++ [lo, hi]) i = byteAt w i := fun i hi =>
    byteAt_append_left w _ i (by omega)
  simp only [hw, hbyte, Nat.reduceLT] at hten hpre hlen
  obtain ⟨c', st', params', rfl, hparams⟩ := exists_frameBody w (by omega) hpre (by omega)
  exact ⟨c', st', params', hi ++ lo, by rw [frameBytes, leBytes_two_append], hparams⟩

/-- A byte sequence decodes to a message exactly when it is that message's frame, with the right checksum if it is
enforced. -/
theorem decodeFn_ok_iff (p : Params) (v : List Byte) (c : Byte) (st : Half) (params : List Byte) :
    decodeFn p v = .ok (.ok c st params) ↔ params.length ≤ 65533 ∧ ∃ k, v = frameBytes c st params k ∧
      (p.checksumEnable = true → k = p.checksum16 (frameBody c st params)) := by
  constructor
  · intro h
    obtain ⟨c', st', params', k, rfl, hlen⟩ := exists_frameBytes_of_decodeFn_ok p v c st params h
    rw [decodeFn_frameBytes p c' st' k params' hlen] at h
    by_cases hwrong : p.checksumEnable = true ∧ k ≠ p.checksum16 (frameBody c' st' params')
    · rw [if_pos hwrong] at h
      cases h
    · rw [if_neg hwrong] at h
      cases h
      exact ⟨hlen, k, rfl, fun hp => by_contra fun hne => hwrong ⟨hp, hne⟩⟩
  · rintro ⟨hlen, k, rfl, hk⟩
    rw [decodeFn_frameBytes p c st k params hlen, if_neg fun hwrong => hwrong.2 (hk hwrong.1)]

/-- A frame as R45 lays it out. -/
theorem frameBytes_eq_layout (c : Byte) (st : Half) (params : List Byte) (k : Half) :
    frameBytes c st params k =
      [0xAA, 0xAA, 0xAA, c, BitVec.ofNat 8 (params.length + 2), BitVec.ofNat 8 ((params.length + 2) / 256),
        st.extractLsb' 0 8, st.extractLsb' 8 8] ++ params ++ [k.extractLsb' 0 8, k.extractLsb' 8 8] := by
  rw [← leBytes_two_half k, frameBytes, frameBody, leBytes_two_half st]
  rfl

/-- Settles O21: the layout is `frameBytes`, and the checksum covers its body. -/
theorem onlyFramesDecode : Obligations.OnlyFramesDecode := by
  intro p v c st params
  rw [decodeFn_ok_iff]
  refine and_congr_right fun _ => exists_congr fun k => ?_
  rw [← frameBytes_eq_layout]
  refine and_congr_right fun hv => ?_
  rw [hv, take_frameBytes]

/-! ### FRAME and FRAMEC -/

/-- Settles O23: both lines expand to a frame, and FRAMEC's checksum is right. -/
theorem framePseudoInstructionsPushAFrame : Obligations.FramePseudoInstructionsPushAFrame := by
  intro p c st k params
  have hcount : (params.map asByte).length = params.length := List.length_map asByte
  refine ⟨fun hwf => ?_, fun hwf => ?_⟩
  · have hlen : params.length ≤ maxParams := of_decide_eq_true (Bool.and_eq_true_iff.mp hwf).2
    refine ⟨_, rfl, by rw [frameBytes_length, hcount], fun hsum => ?_⟩
    rw [← hcount, take_frameBytes] at hsum
    refine (decodeFn_ok_iff p _ _ _ _).mpr ⟨hcount.trans_le hlen, _, rfl, fun hp => ?_⟩
    exact hsum.resolve_left fun hoff => nomatch hp.symm.trans hoff
  · have hlen : params.length ≤ maxParams := of_decide_eq_true (Bool.and_eq_true_iff.mp hwf).2
    refine ⟨_, rfl, by rw [frameBytesC, frameBytes_length, hcount], ?_⟩
    exact (decodeFn_ok_iff p _ _ _ _).mpr ⟨hcount.trans_le hlen, _, rfl, fun _ => rfl⟩

end Sys2Proof.Machine

/-! SUPPORT. Frames that fail (R81, R82, R93): a wrong checksum, a length that is not the frame's, a flipped bit; and
what the trailer can do when the checksum is off. -/

namespace Sys2Proof.Machine

/-! ### Check 5 -/

/-- Settles O18: only check 5 is left to fail. -/
theorem wrongChecksumIsReported : Obligations.WrongChecksumIsReported := by
  intro p c st k params hp hlen hne
  rw [decodeFn_frameBytes p c st k params hlen, if_pos ⟨hp, hne⟩]

/-- With the checksum off the last two bytes are not read (R93). -/
theorem expectedResult_congr_of_disabled (p : Params) (len : Nat) (f g : Nat → Byte)
    (hp : p.checksumEnable = false) (hbytes : ∀ i, i + 2 < len → f i = g i) :
    expectedResult p len false f = expectedResult p len false g := by
  by_cases h1 : len < 10
  · rw [expectedResult_of_short p len false f h1, expectedResult_of_short p len false g h1]
  have header : ∀ i, i < 8 → f i = g i := fun i hi => hbytes i (by omega)
  simp only [expectedResult, hp, Bool.false_eq_true, false_and, false_or, if_false, header, Nat.reduceLT]
  generalize (g 5 ++ g 4 : Half).toNat = pl
  by_cases h4 : len ≠ pl + 8
  · simp only [if_pos h4]
  have hparams : (List.range (pl - 2)).map (fun k => f (8 + k)) = (List.range (pl - 2)).map fun k => g (8 + k) :=
    List.map_congr_left fun k hk => hbytes (8 + k) (by have := List.mem_range.mp hk; omega)
  rw [hparams]

theorem expectedResult_ne_checksumError_of_disabled (p : Params) (len : Nat) (overflow : Bool) (f : Nat → Byte)
    (hp : p.checksumEnable = false) : expectedResult p len overflow f ≠ .fail .checksumError := by
  simp only [expectedResult, hp, Bool.false_eq_true, false_and, if_false]
  split_ifs <;> exact nofun

/-- Settles O17: the two sequences differ in their trailer alone. -/
theorem disabledChecksumIgnoresTheTrailer : Obligations.DisabledChecksumIgnoresTheTrailer := by
  intro p v x y x' y' hp
  have hlen : ∀ a b : Byte, (v ++ [a, b]).length = v.length + 2 := fun a b => List.length_append
  rw [decodeFn_eq_expectedResult, decodeFn_eq_expectedResult, hlen, hlen]
  refine ⟨congrArg Except.ok (expectedResult_congr_of_disabled p _ _ _ hp fun i hi => ?_),
    fun h => expectedResult_ne_checksumError_of_disabled p _ _ _ hp (Except.ok.inj h)⟩
  have hi' : i < v.length := by omega
  rw [byteAt_append_left v _ i hi', byteAt_append_left v _ i hi']

/-! ### Check 4 -/

/-- Bytes that begin like a frame but have another length fail check 4, unless they are too few for check 1 (R81). -/
theorem decodeFn_of_resized_frame (p : Params) (c : Byte) (st k : Half) (params w : List Byte)
    (hlen : params.length ≤ 65533) (hten : 10 ≤ w.length) (hne : w.length ≠ params.length + 10)
    (hbytes : ∀ i, i < 6 → byteAt w i = byteAt (frameBytes c st params k) i) :
    decodeFn p w = .ok (.fail .lengthMismatch) := by
  have hpl : (byteAt w 5 ++ byteAt w 4 : Half).toNat = params.length + 2 := by
    rw [hbytes 5 (by omega), hbytes 4 (by omega), frameBytes_payloadLength, BitVec.toNat_ofNat]
    omega
  have hpre : byteAt w 0 = 0xAA ∧ byteAt w 1 = 0xAA ∧ byteAt w 2 = 0xAA := by
    rw [hbytes 0 (by omega), hbytes 1 (by omega), hbytes 2 (by omega), frameBytes_eq]
    exact ⟨rfl, rfl, rfl⟩
  rw [decodeFn_eq_expectedResult, expectedResult, if_neg (by omega), if_neg (by simp [hpre]), hpl,
    if_neg (by omega), if_pos (.inr (by omega))]

/-- Settles O19: a frame is `PL + 8` bytes, so one more or one fewer do not fit; without parameters one fewer are 9. -/
theorem paddedOrTruncatedFramesFail : Obligations.PaddedOrTruncatedFramesFail := by
  intro p c x st k params hlen
  have hframe := frameBytes_length c st params k
  have hpadded : (frameBytes c st params k ++ [x]).length = params.length + 11 := by
    rw [List.length_append, hframe, List.length_singleton]
  have htruncated : (frameBytes c st params k).dropLast.length = params.length + 9 := by
    rw [List.length_dropLast, hframe]
    rfl
  refine ⟨?_, fun hparams => ?_, fun hparams => ?_⟩
  · exact decodeFn_of_resized_frame p c st k params _ hlen (by omega) (by omega) fun i hi =>
      byteAt_append_left _ _ i (by omega)
  · have hpos := List.length_pos_iff.mpr hparams
    refine decodeFn_of_resized_frame p c st k params _ hlen (by omega) (by omega) fun i hi => ?_
    rw [byteAt, byteAt, List.getElem?_dropLast, if_pos (by omega)]
  · rw [decodeFn_eq_expectedResult, expectedResult_of_short p _ _ _ (by rw [htruncated, hparams]; decide)]

/-! ### Flipped bits -/

@[simp] theorem flipBit_length (v : List Byte) (i j : Nat) : (flipBit v i j).length = v.length :=
  List.length_modify _ _ _

theorem byteAt_flipBit_of_ne (v : List Byte) (i j a : Nat) (h : i ≠ a) : byteAt (flipBit v i j) a = byteAt v a := by
  rw [byteAt, byteAt, flipBit, List.getElem?_modify_ne _ v h]

theorem flipBit_append_left (v w : List Byte) (i j : Nat) (h : i < v.length) :
    flipBit (v ++ w) i j = flipBit v i j ++ w := by
  rw [flipBit, flipBit, List.modify_eq_set, List.modify_eq_set, List.getElem?_append_left h, List.set_append_left _ _ h]

/-- A flip that spares the preamble and the Payload Length leaves a frame body, of other contents. -/
theorem exists_frameBody_flipBit (c : Byte) (st : Half) (params : List Byte) (i j : Nat)
    (hlen : params.length ≤ 65533) (hi : i = 3 ∨ 6 ≤ i) :
    ∃ c' st' params', flipBit (frameBody c st params) i j = frameBody c' st' params' ∧ params'.length ≤ 65533 := by
  have hbody : (frameBody c st params).length = params.length + 8 := frameBody_length c st params
  have hsame := byteAt_flipBit_of_ne (frameBody c st params) i j
  refine exists_frameBody _ (by rw [flipBit_length]; omega) ?_ ?_
  · rw [hsame 0 (by omega), hsame 1 (by omega), hsame 2 (by omega)]
    exact ⟨rfl, rfl, rfl⟩
  · rw [flipBit_length, hsame 5 (by omega), hsame 4 (by omega), frameBody_payloadLength, BitVec.toNat_ofNat]
    omega

/-- A flip in a valid frame's body that changes the checksum of the body is reported (R82, R94). -/
theorem decodeFn_of_flipped_body (p : Params) (c : Byte) (st : Half) (params : List Byte) (i j : Nat)
    (hp : p.checksumEnable = true) (hlen : params.length ≤ 65533) (hi : i = 3 ∨ 6 ≤ i) (hbody : i < params.length + 8)
    (hdetect : p.checksum16 (frameBody c st params) ≠ p.checksum16 (flipBit (frameBody c st params) i j)) :
    decodeFn p (flipBit (frameBytesC p c st params) i j) = .ok (.fail .checksumError) := by
  obtain ⟨c', st', params', hflip, hlen'⟩ := exists_frameBody_flipBit c st params i j hlen hi
  rw [frameBytesC, frameBytes, flipBit_append_left _ _ i j (by rwa [frameBody_length]), hflip]
  rw [hflip] at hdetect
  exact wrongChecksumIsReported p c' st' _ params' hp hlen' hdetect

/-- Settles O22: the flipped byte lies in the body, which stays a frame body with another checksum. -/
theorem bitFlipsAreDetected : Obligations.BitFlipsAreDetected := by
  intro p c st params i j hp hlen hj
  have hbody : (frameBody c st params).length = params.length + 8 := frameBody_length c st params
  refine ⟨fun hdetect hsix hi => ?_, fun hdetect hi => ?_⟩
  · exact decodeFn_of_flipped_body p c st params i j hp hlen (.inr hsix) hi
      (hdetect _ i j (by omega) hsix (by omega) hj)
  · exact decodeFn_of_flipped_body p c st params i j hp hlen (.inl hi) (by omega)
      (hdetect _ i j (by omega) (by omega) hj)

end Sys2Proof.Machine

/-! SUPPORT. The canonical form of the byte stores (R30, notes/assumptions/4.md): every operation keeps it. -/

namespace Sys2Proof.Machine

namespace State.StoresCanonical

variable {s t : State}

/-! Operations that write no byte of a store. -/

/-- The canonical form depends on the two stores alone. -/
theorem congr (h : s.StoresCanonical) (hibuf : t.ibuf = s.ibuf) (hpbuf : t.pbuf = s.pbuf) : t.StoresCanonical where
  ibuf_wf := hibuf ▸ h.ibuf_wf
  ibuf_within := hibuf ▸ h.ibuf_within
  pbuf_wf := hpbuf ▸ h.pbuf_wf
  pbuf_within := hpbuf ▸ h.pbuf_within

theorem takeEvent (h : s.StoresCanonical) : s.takeEvent.StoresCanonical := h.congr rfl rfl

theorem recordRead (h : s.StoresCanonical) (v : HostRead) : (s.recordRead v).StoresCanonical := h.congr rfl rfl

theorem raiseBusy (h : s.StoresCanonical) : s.raiseBusy.StoresCanonical := h.congr rfl rfl

theorem lowerBusy (h : s.StoresCanonical) : s.lowerBusy.StoresCanonical := h.congr rfl rfl

theorem emptyInput (h : s.StoresCanonical) : s.emptyInput.StoresCanonical := h.congr rfl rfl

theorem setOverflow (h : s.StoresCanonical) : s.setOverflow.StoresCanonical := h.congr rfl rfl

theorem writeFailure (h : s.StoresCanonical) (o : Failure) : (s.writeFailure o).StoresCanonical := h.congr rfl rfl

theorem resetInput (h : s.StoresCanonical) : s.resetInput.StoresCanonical := h.congr rfl rfl

/-! Operations that write a store, within its indices. -/

theorem storeInput (h : s.StoresCanonical) (b : Byte) (hlt : s.ilen.toNat < ibufCap) :
    (s.storeInput b).StoresCanonical :=
  { h with
    ibuf_wf := Memory.write_wf s.ibuf s.ilen.toNat b h.ibuf_wf
    ibuf_within := Memory.write_within s.ibuf s.ilen.toNat b ibufCap h.ibuf_within hlt }

theorem pushByte (h : s.StoresCanonical) (b : Byte) : (s.pushByte b).StoresCanonical := by
  obtain ⟨hlt, e⟩ | ⟨-, e⟩ := pushByte_cases s b <;> rw [e]
  · exact h.storeInput b hlt
  · exact h.setOverflow

theorem writeMessage (h : s.StoresCanonical) (c : Byte) (st : Half) (params : List Byte)
    (hlen : params.length ≤ pbufCap) : (s.writeMessage c st params).StoresCanonical :=
  { h with
    pbuf_wf := Memory.writeList_wf s.pbuf 0 params h.pbuf_wf
    pbuf_within := Memory.writeList_within s.pbuf 0 params pbufCap h.pbuf_within ((Nat.zero_add _).trans_le hlen) }

/-! Transitions. -/

theorem of_completeWith (h : s.StoresCanonical) (p : Params) (hc : completeWith p s = .next t) :
    t.StoresCanonical := by
  obtain ⟨r, u, -, hu, rfl⟩ := completeWith_cases p s t hc
  have hwritten : u.StoresCanonical := by
    obtain ⟨o, -, rfl⟩ | ⟨c, st, params, -, hlen, rfl⟩ := writeBack_cases s u r hu
    · exact h.writeFailure o
    · exact h.writeMessage c st params hlen
  exact hwritten.emptyInput.lowerBusy

theorem of_exec (h : s.StoresCanonical) (i : Instr) (he : exec i s = .next t) : t.StoresCanonical := by
  obtain rfl | ⟨b, -, rfl⟩ | ⟨-, rfl⟩ | ⟨-, rfl⟩ | ⟨k, -, rfl⟩ := exec_cases i s t he
  · exact h
  · exact h.pushByte b
  · exact h.raiseBusy
  · exact h.emptyInput
  · exact h.recordRead _

end State.StoresCanonical

/-- Settles O30: each of the six transitions keeps the canonical form. -/
theorem stepKeepsStoresCanonical : Obligations.StepKeepsStoresCanonical := by
  intro s t h hst
  obtain ⟨-, rfl⟩ | ⟨-, hc⟩ | ⟨-, rfl⟩ | ⟨-, rfl⟩ | ⟨p, -, rfl⟩ | ⟨i, -, he⟩ := step_cases s t hst
  · exact h
  · exact h.of_completeWith Params.device hc
  · exact h.takeEvent
  · exact h.takeEvent.resetInput
  · exact h.takeEvent.recordRead _
  · exact h.takeEvent.of_exec i he

/-- Settles O29: each of the six transitions keeps the five clauses. -/
theorem stepKeepsStateLegal : Obligations.StepKeepsStateLegal := step_keeps_legal

/-- Settles O28: the reset values, and both invariants of a state whose counters are 0 and whose stores list nothing. -/
theorem resetStateIsLegal : Obligations.ResetStateIsLegal := by
  have hcanonical : State.reset.StoresCanonical := ⟨⟨.nil, nofun⟩, nofun, ⟨.nil, nofun⟩, nofun⟩
  exact ⟨rfl, rfl, rfl, rfl, rfl, rfl, rfl, rfl, .reset_withSchedule [], hcanonical⟩

end Sys2Proof.Machine

/-! SUPPORT. What the host pushes (R15, R66, R71): a step writes IBUF only as an accepted PUSH, and a run over PUSH
commands gathers their bytes in the virtual buffer, which DECODE then decodes. -/

namespace Sys2Proof.Machine

/-! ### IBUF changes only by PUSH -/

/-- Settles O24: each of the six transitions keeps the view. -/
theorem stepKeepsTheViewOfTheVirtualBuffer : Obligations.StepKeepsTheViewOfTheVirtualBuffer :=
  fun _ _ _ hwf h hst => h.of_step hwf hst

/-- PUSH writes no byte of IBUF but the one at ILEN, and that only below the capacity (R63, R64). -/
theorem pushByte_changes_ibuf (s : State) (b : Byte) (a : Nat) (hwf : s.ibuf.wf)
    (h : (s.pushByte b).ibuf.read a ≠ s.ibuf.read a) :
    a = s.ilen.toNat ∧ a < ibufCap ∧ (s.pushByte b).ibuf.read a = b := by
  obtain ⟨hlt, e⟩ | ⟨-, e⟩ := pushByte_cases s b <;> rw [e] at h ⊢
  · have hread := Memory.read_write s.ibuf s.ilen.toNat b a hwf
    rw [State.storeInput_ibuf, hread] at h ⊢
    obtain rfl : a = s.ilen.toNat := by_contra fun hne => h (if_neg hne)
    exact ⟨rfl, hlt, if_pos rfl⟩
  · exact absurd rfl h

/-- Of the instructions only PUSH writes IBUF. -/
theorem push_of_exec_changes_ibuf (i : Instr) (s t : State) (a : Nat) (h : exec i s = .next t)
    (ha : t.ibuf.read a ≠ s.ibuf.read a) : ∃ b, i = .push b ∧ t = s.pushByte b := by
  obtain rfl | hpush | ⟨-, rfl⟩ | ⟨-, rfl⟩ | ⟨k, -, rfl⟩ := exec_cases i s t h
  · exact absurd rfl ha
  · exact hpush
  · exact absurd rfl ha
  · exact absurd rfl ha
  · exact absurd rfl ha

/-- A step that changes a byte of IBUF takes a PUSH. -/
theorem push_of_step_changes_ibuf (s t : State) (a : Nat) (h : step s = .next t)
    (ha : t.ibuf.read a ≠ s.ibuf.read a) :
    ∃ b, nextAction s = .run (.push b) ∧ t = s.takeEvent.pushByte b := by
  obtain ⟨-, rfl⟩ | ⟨-, hc⟩ | ⟨-, rfl⟩ | ⟨-, rfl⟩ | ⟨p, -, rfl⟩ | ⟨i, hi, he⟩ := step_cases s t h
  · exact absurd rfl ha
  · rw [completeWith_ibuf Params.device s t hc] at ha
    exact absurd rfl ha
  · exact absurd rfl ha
  · exact absurd rfl ha
  · exact absurd rfl ha
  · obtain ⟨b, rfl, ht⟩ := push_of_exec_changes_ibuf i s.takeEvent t a he ha
    exact ⟨b, hi, ht⟩

/-- Settles O34: the step takes a PUSH, from a word of opcode 1, and stores the word's data field. -/
theorem onlyPushWritesTheInputBuffer : Obligations.OnlyPushWritesTheInputBuffer := by
  intro s t a hwf h ha
  obtain ⟨b, hrun, rfl⟩ := push_of_step_changes_ibuf s t a h ha
  obtain ⟨hilen, hcap, hread⟩ := pushByte_changes_ibuf s.takeEvent b a hwf ha
  obtain ⟨hb, w, es, hw, hd⟩ := ready_of_nextAction_run s (.push b) hrun nofun
  obtain ⟨hop, hi⟩ | ⟨-, hi⟩ | ⟨-, hi⟩ := decodeCommand_cases w _ hd
  · cases hi
    exact ⟨hb, hilen, hcap, w, es, hw, (opField_eq_iff w 0x01).mp hop, hread.trans (dataField_eq_setWidth w)⟩
  · cases hi
  · cases hi

/-! ### Pushing a whole buffer -/

/-- The step of an offered instruction with BUSY 0. -/
theorem step_of_ready_offer {s : State} {i : Instr} {es : List Event} (hb : s.busy = false)
    (hs : s.schedule = offer i :: es) : step s = exec i s.takeEvent :=
  step_of_run (nextAction_of_ready_decodes hb hs (decodeRequest_encode i))

/-- Pushing `v` appends it to the virtual buffer; BUSY stays 0 and what the host has read stays (R66). -/
theorem runFor_pushAll (v u : List Byte) (es : List Event) (s : State) (hb : s.busy = false)
    (hcanon : s.StoresCanonical) (hview : ViewOf u s) (hs : s.schedule = pushAll v ++ es) :
    ∃ t, runFor v.length s = .next t ∧ ViewOf (u ++ v) t ∧ t.StoresCanonical ∧ t.busy = false ∧
      t.schedule = es ∧ t.received = s.received := by
  induction v generalizing u s with
  | nil => exact ⟨s, runFor_zero s, (List.append_nil u).symm ▸ hview, hcanon, hb, hs, rfl⟩
  | cons b v ih =>
    have hhead : s.schedule = offer (.push b) :: (pushAll v ++ es) := hs
    obtain ⟨hsched, hreceived⟩ := sameHost_pushByte s.takeEvent b
    have hstep : step s = .next (s.takeEvent.pushByte b) :=
      (step_of_ready_offer hb hhead).trans (exec_push_of_ready b s.takeEvent hb)
    obtain ⟨t, hrun, hview', hcanon', hb', hs', hreceived'⟩ :=
      ih (u ++ [b]) (s.takeEvent.pushByte b) ((pushByte_busy _ b).trans hb) (hcanon.takeEvent.pushByte b)
        (hview.takeEvent.pushByte hcanon.ibuf_wf b) (hsched.trans (takeEvent_schedule_of_cons hhead))
    rw [List.append_assoc, List.singleton_append] at hview'
    exact ⟨t, (runFor_succ_of_next v.length s _ hstep).trans hrun, hview', hcanon', hb', hs',
      hreceived'.trans hreceived⟩

/-- From a view of `v`, DECODE and a WAIT show the document's decode of `v` (R71, R89). -/
theorem runFor_decode_wait (v : List Byte) (es : List Event) (s : State) (hb : s.busy = false) (hwf : s.pbuf.wf)
    (hview : ViewOf v s) (hs : s.schedule = offer .decode :: .wait :: es) :
    ∃ r t, decodeFn Params.device v = .ok r ∧ runFor 2 s = .next t ∧ ShowsResult t r ∧ t.InputEmpty ∧
      t.schedule = .wait :: es ∧ t.received = s.received := by
  have haccept : step s = .next s.takeEvent.raiseBusy :=
    (step_of_ready_offer hb hs).trans (exec_decode_of_ready s.takeEvent hb)
  have hsched : s.takeEvent.raiseBusy.schedule = .wait :: es := takeEvent_schedule_of_cons hs
  obtain ⟨t, hst, hc, -, -, -, hsched', hreceived⟩ := step_completes (nextAction_of_busy_wait rfl hsched)
  obtain ⟨r, hr, hshows, hempty⟩ := completeWith_shows Params.device s.takeEvent.raiseBusy t hwf hc
  have hdecode : decodeFn Params.device v = .ok r :=
    (boundedBufferIsExact Params.device v s.takeEvent.raiseBusy hview.takeEvent.raiseBusy).symm.trans hr
  have hrun : runFor 2 s = .next t :=
    (runFor_succ_of_next 1 s _ haccept).trans (runFor_succ_of_next 0 _ t hst)
  exact ⟨r, t, hdecode, hrun, hshows, hempty, hsched'.trans hsched, hreceived⟩

/-- Settles O27: the pushes leave the view of `v`, and DECODE completes on it. -/
theorem pushedBufferDecodesAsTheDocumentSays : Obligations.PushedBufferDecodesAsTheDocumentSays := by
  intro v s es hempty hcanon
  obtain ⟨hilen, hiovf, hb⟩ := hempty
  obtain ⟨u, hpush, hview, hcanon', hb', hs', hreceived'⟩ :=
    runFor_pushAll v [] (offer .decode :: .wait :: es) { s with schedule := pushAll v ++ offer .decode :: .wait :: es }
      hb (hcanon.congr rfl rfl) (.of_empty hilen hiovf) rfl
  obtain ⟨r, t, hdecode, hrun, hshows, hempty', hs'', hreceived''⟩ :=
    runFor_decode_wait v es u hb' hcanon'.pbuf_wf hview hs'
  exact ⟨r, t, hdecode, (runFor_add v.length 2 _ u hpush).trans hrun, hshows, hempty', hs'',
    hreceived''.trans hreceived'⟩

end Sys2Proof.Machine

/-! SUPPORT. The host's reads (R96, R97), the events that end or clear (R120, R121), and the vocabularies (R98, R103). -/

namespace Sys2Proof.Machine

/-- Settles O37: the request is not held, so its instruction runs once it is taken. -/
theorem stepRunsTheOfferedInstruction : Obligations.StepRunsTheOfferedInstruction := by
  intro s r i es hs hd _ hready
  have haction : nextAction s = .run i := by
    obtain hb | ⟨k, rfl⟩ := hready
    · exact nextAction_of_ready_decodes hb hs hd
    · cases hd
      exact nextAction_of_readIndex hs
  rw [step_of_run haction, takeEvent_of_schedule hs]

/-- Settles O36: reset is taken at once, BUSY or not. -/
theorem resetClearsEveryPort : Obligations.ResetClearsEveryPort := by
  intro s es hs
  have hparam : ∀ i, s.takeEvent.resetInput.paramByte i = 0 := fun i => paramByte_of_ge _ i (Nat.zero_le _)
  exact ⟨_, step_of_reset (nextAction_of_reset hs), rfl, rfl, rfl, rfl, rfl, rfl, rfl, rfl, hparam,
    takeEvent_schedule_of_cons hs, rfl⟩

/-- Settles O40, by induction on the number of steps. -/
theorem endedRunPersists : Obligations.EndedRunPersists := by
  intro s n h
  obtain ⟨hs, hb⟩ := h
  have hidle : step s = .next s := step_of_idle (nextAction_of_ended hb hs)
  induction n with
  | zero => exact runFor_zero s
  | succ n ih => rw [runFor_succ_of_next n s s hidle, ih]

/-- Settles O39: a port read is taken at once, BUSY or not, and only records. -/
theorem portReadHasNoSideEffect : Obligations.PortReadHasNoSideEffect := by
  intro s q es hs
  refine ⟨_, step_of_readPort (nextAction_of_readPort hs), takeEvent_schedule_of_cons hs, rfl,
    ⟨rfl, rfl, fun _ => rfl⟩, sameResult_recordRead s.takeEvent (s.portValue q), ?_⟩
  rw [State.recordRead_received, State.takeEvent_received]
  cases q <;> rfl

/-- With PCOUNT legal the read port needs no check of its own against the capacity (R96). -/
theorem paramByte_of_legal (s : State) (i : Half) (h : s.pcount.toNat ≤ pbufCap) :
    s.paramByte i = if i.toNat < s.pcount.toNat then s.pbuf.read i.toNat else 0 := by
  by_cases hi : i.toNat < s.pcount.toNat
  · rw [if_pos hi, paramByte_of_lt s i hi (hi.trans_le h)]
  · rw [if_neg hi, paramByte_of_ge s i (Nat.not_lt.mp hi)]

/-- Settles O9: the read port gives `paramByte` and records it. -/
theorem rdParamReadsOneByte : Obligations.RdParamReadsOneByte := by
  intro i s h
  exact ⟨Laws.OpcodeField.rdParam i, s.paramByte i, _, rfl, paramByte_of_legal s i h,
    fun hi => paramByte_of_ge s i (h.trans hi), rfl, rfl, rfl, ⟨rfl, rfl, fun _ => rfl⟩, sameResult_recordRead s _⟩

/-- Settles O44: 0 and 14 are the fixed entries of KNOWN_STATUS. -/
theorem statusClassification : Obligations.StatusClassification := by
  have hunknown : Config.knownStatus 14 = some .cmdUnknown := by
    rw [Config.knownStatus, if_neg (by decide), if_pos rfl]
  refine ⟨rfl, by rw [statusClass, hunknown], fun raw => ?_⟩
  cases hraw : Config.knownStatus raw with
  | some n => exact .inl ⟨n, rfl, by rw [statusClass, hraw]⟩
  | none => exact .inr ⟨rfl, by rw [statusClass, hraw]⟩

/-! ### StateFlag words -/

/-- Bytes joined under higher ones: the value of the join (R32). -/
theorem toNat_append_byte {n : Nat} (x : BitVec n) (b : Byte) : (x ++ b).toNat = b.toNat + 256 * x.toNat := by
  rw [BitVec.toNat_append, Nat.shiftLeft_eq, Nat.mul_comm, ← Nat.two_pow_add_eq_or_of_lt b.isLt, Nat.add_comm]

/-- Four bytes assembled little-endian: the higher offsets hold the higher bits (R103). -/
theorem ofNat_littleEndian_four (b0 b1 b2 b3 : Byte) :
    BitVec.ofNat 32 (littleEndian [b0, b1, b2, b3]) = (b3 ++ b2 ++ b1 ++ b0 : BitVec 32) := by
  have hjoin : littleEndian [b0, b1, b2, b3] = (b3 ++ b2 ++ b1 ++ b0 : BitVec 32).toNat := by
    simp only [littleEndian, toNat_append_byte, Nat.mul_zero, Nat.add_zero]
  rw [hjoin, BitVec.ofNat_toNat, BitVec.setWidth_eq]

/-- Settles O45: below PCOUNT the read port gives the bytes of PBUF. -/
theorem stateFlagWordIsLittleEndian : Obligations.StateFlagWordIsLittleEndian := by
  intro s k h
  rw [State.stateFlagWord]
  split
  · next hk =>
    have hbyte : ∀ i, i < s.pcount.toNat → s.paramByte (BitVec.ofNat 16 i) = s.pbuf.read i := fun i hi => by
      have hwidth : (BitVec.ofNat 16 i).toNat = i := by
        rw [BitVec.toNat_ofNat]
        omega
      rw [paramByte_of_legal s _ h, hwidth, if_pos hi]
    rw [ofNat_littleEndian_four, hbyte k (by omega), hbyte (k + 1) (by omega), hbyte (k + 2) (by omega),
      hbyte (k + 3) (by omega)]
  · rfl

end Sys2Proof.Machine
